-- ==== Sys2Proof/Word.lean ====
section
/-! DEFINITION. The words of the machine (spec/00_scope.md R5, R6). A 16-bit value is a bit vector, because the
manual adds, shifts and masks it; a register index is a plain index below 8. -/

namespace Sys2Proof

/-- A 16-bit value `u16`: a register, a memory cell, the program counter, an instruction word (R5 `XLEN`,
`PC_WIDTH`, `CELL_WIDTH`, `ILEN`; R6). Bit 0 is the least significant bit. -/
abbrev Word := BitVec 16

/-- The index of a general register, 0 to 7 (R10: a 3-bit field, so no index is out of range). -/
abbrev Reg := Fin 8

/-- The immediate field `imm9` (R5 `IMM_WIDTH`, R56): an unsigned number 0..511. -/
abbrev Imm9 := BitVec 9

/-- A value of the 4-bit opcode field (R5 `OPCODE_WIDTH`, R56). -/
abbrev Opcode := BitVec 4

end Sys2Proof
end

