-- ==== Sys2Proof/Config.lean ====
section
/-! DEFINITION. What an implementation of the machine fixes (spec/00_scope.md R5): the memory size, the reset value
of the program counter, what a processor reset does to memory, and the shape of the opcode numbering `OPMAP`. The
default numbering itself is `Sys2Proof.defaultOpMap` in Decode.lean. The spec leaves no value free (R90: "no undefined
value"), so there is no opaque constant here. -/

namespace Sys2Proof

/-- `MEM_CELLS` (R5): 65536 cells of 16 bits. -/
def Config.memCells : Nat := 65536

/-- `RESET_PC` (R5, R22): execution starts at cell 0. -/
def Config.resetPc : Word := 0x0000#16

/-- `RESET_CLEARS_MEM` (spec/92_eei_decisions.md D3, spec/93_implementation_defined.md U7): a processor reset leaves
memory as it is. DESIGN CHOICE of the spec, unsafe: notes/assumptions/5.md. -/
def Config.resetClearsMem : Bool := false

/-- The sixteen mnemonics (R2). The source numbers none of them (R62). -/
inductive Mnemonic
  | HALT | MOVI | MOV | LOAD | STORE | ADD | SUB | AND | OR | XOR | NOT | SHL | SHR | JMP | JZ | NOP
deriving DecidableEq, Repr

/-- All sixteen mnemonics, in the order of the source's table (R2, R62). -/
def Mnemonic.all : List Mnemonic :=
  [.HALT, .MOVI, .MOV, .LOAD, .STORE, .ADD, .SUB, .AND, .OR, .XOR, .NOT, .SHL, .SHR, .JMP, .JZ, .NOP]

/-- The parameter `OPMAP` (R62): which 4-bit value selects which mnemonic. `codeOf` is what an encoder writes and
`mnemonicOf` what the dispatch reads; `none` is an opcode value assigned to no instruction, which a partial map may
have (R65). `OpMap.wellFormed` says that the two directions are one bijection. -/
structure OpMap where
  codeOf : Mnemonic → Opcode
  mnemonicOf : Opcode → Option Mnemonic

end Sys2Proof
end

