-- ==== Sys2Proof/Syntax.lean ====
section
/-! DEFINITION. The sixteen instructions (spec/00_scope.md R2, spec/30_encoding.md R58), one constructor for each row
of spec/opcode_table.json, with the operands its format uses and no others. -/

namespace Sys2Proof

/-- One instruction, with the operands of its format (R58): `RR` has `rd` and `rs`, `RD` has `rd`, `RS` has `rs`,
`I` has `rd` and `imm9`, `N` has none. For STORE the `rd` field names the register whose value is stored (R103). -/
inductive Instr
  | halt
  | movi (rd : Reg) (imm : Imm9)
  | mov (rd rs : Reg)
  | load (rd rs : Reg)
  | store (rd rs : Reg)
  | add (rd rs : Reg)
  | sub (rd rs : Reg)
  | and (rd rs : Reg)
  | or (rd rs : Reg)
  | xor (rd rs : Reg)
  | not (rd rs : Reg)
  | shl (rd : Reg)
  | shr (rd : Reg)
  | jmp (rs : Reg)
  | jz (rs : Reg)
  | nop
deriving DecidableEq, Repr

end Sys2Proof
end

