-- ==== Sys2Proof/WellFormed.lean ====
section
/-! DEFINITION. What must hold of an instruction as it is written down, before it has a word, and of an opcode
numbering. The type `Instr` holds in-range operands only, so the checks stand on the raw form: numbers as a writer of
instructions gives them (spec/30_encoding.md R73, R74: a register literal is 0 to 7 and an immediate 0 to 511, and an
out-of-range one yields no instruction word). -/

namespace Sys2Proof

/-- The operand formats of R58. -/
inductive Format
  | RR | RD | RS | I | N
deriving DecidableEq, Repr

/-- The format of each mnemonic (R58, R62). -/
def Mnemonic.format : Mnemonic → Format
  | .MOV | .LOAD | .STORE | .ADD | .SUB | .AND | .OR | .XOR | .NOT => .RR
  | .SHL | .SHR => .RD
  | .JMP | .JZ => .RS
  | .MOVI => .I
  | .HALT | .NOP => .N

/-- An instruction as numbers: a mnemonic and the values given for its fields (R73, R75). -/
structure RawInstr where
  mnemonic : Mnemonic
  rd : Nat
  rs : Nat
  imm : Nat
deriving DecidableEq, Repr

/-- The operands are in range (R73, R74), and a field the format does not use is given as 0: the spec's decision D7
(R60, R75), notes/assumptions/15.md. -/
def RawInstr.wellFormed (r : RawInstr) : Bool :=
  match r.mnemonic.format with
  | .RR => decide (r.rd < 8) && decide (r.rs < 8) && r.imm == 0
  | .RD => decide (r.rd < 8) && r.rs == 0 && r.imm == 0
  | .RS => r.rd == 0 && decide (r.rs < 8) && r.imm == 0
  | .I => decide (r.rd < 8) && r.rs == 0 && decide (r.imm < 512)
  | .N => r.rd == 0 && r.rs == 0 && r.imm == 0

/-- The raw form of an instruction: its operands as R75 assigns them (the spec's decision D7, notes/assumptions/15.md). -/
def Instr.raw : Instr → RawInstr
  | .halt => ⟨.HALT, 0, 0, 0⟩
  | .movi rd imm => ⟨.MOVI, rd.val, 0, imm.toNat⟩
  | .mov rd rs => ⟨.MOV, rd.val, rs.val, 0⟩
  | .load rd rs => ⟨.LOAD, rd.val, rs.val, 0⟩
  | .store rd rs => ⟨.STORE, rd.val, rs.val, 0⟩
  | .add rd rs => ⟨.ADD, rd.val, rs.val, 0⟩
  | .sub rd rs => ⟨.SUB, rd.val, rs.val, 0⟩
  | .and rd rs => ⟨.AND, rd.val, rs.val, 0⟩
  | .or rd rs => ⟨.OR, rd.val, rs.val, 0⟩
  | .xor rd rs => ⟨.XOR, rd.val, rs.val, 0⟩
  | .not rd rs => ⟨.NOT, rd.val, rs.val, 0⟩
  | .shl rd => ⟨.SHL, rd.val, 0, 0⟩
  | .shr rd => ⟨.SHR, rd.val, 0, 0⟩
  | .jmp rs => ⟨.JMP, 0, rs.val, 0⟩
  | .jz rs => ⟨.JZ, 0, rs.val, 0⟩
  | .nop => ⟨.NOP, 0, 0, 0⟩

/-- The check on an instruction. Every term of `Instr` passes it (`Laws.instr_wellFormed`): an operand out of range
cannot be written, as R10 and R59 say of the fields of a word. -/
def Instr.wellFormed (i : Instr) : Bool := i.raw.wellFormed

/-- An `OPMAP` is a bijection between the sixteen mnemonics and 0..15 (R62): each mnemonic's number selects it, and
each number selects a mnemonic that has this number. -/
def OpMap.wellFormed (m : OpMap) : Bool :=
  Mnemonic.all.all (fun k => m.mnemonicOf (m.codeOf k) == some k) &&
  (List.range 16).all (fun c =>
    match m.mnemonicOf (BitVec.ofNat 4 c) with
    | some k => m.codeOf k == BitVec.ofNat 4 c
    | none => false)

end Sys2Proof
end

