-- ==== Sys2Proof/Decode.lean ====
section
/-! DEFINITION. The instruction codec (spec/30_encoding.md): field extraction, the opcode map, the decoder, and after
it the encoder. The decoder is total on all 65536 words and refuses none, because none is illegal (R63); it ignores the
bits the selected instruction does not use (R64). -/

namespace Sys2Proof

/-- The four fields the decoder produces from every word, whatever the opcode (R57). -/
structure Fields where
  op : Opcode
  rd : Reg
  rs : Reg
  imm9 : Imm9
deriving DecidableEq, Repr

/-- The register a 3-bit field names (R10, R56). -/
def regOfBits (b : BitVec 3) : Reg := b.toFin

/-- The 3-bit field that names a register (R56). -/
def bitsOfReg (r : Reg) : BitVec 3 := BitVec.ofFin r

/-- Field extraction: `op = w[15:12]`, `rd = w[11:9]`, `rs = w[8:6]`, `imm9 = w[8:0]` (R57). -/
def fieldsOf (w : Word) : Fields where
  op := w.extractLsb' 12 4
  rd := regOfBits (w.extractLsb' 9 3)
  rs := regOfBits (w.extractLsb' 6 3)
  imm9 := w.extractLsb' 0 9

/-- The number of each mnemonic under the default `OPMAP` (R62). DESIGN CHOICE of the spec (D1), unsafe:
notes/assumptions/2.md. -/
def defaultCodeOf : Mnemonic → Opcode
  | .HALT => 0x0#4
  | .MOVI => 0x1#4
  | .MOV => 0x2#4
  | .LOAD => 0x3#4
  | .STORE => 0x4#4
  | .ADD => 0x5#4
  | .SUB => 0x6#4
  | .AND => 0x7#4
  | .OR => 0x8#4
  | .XOR => 0x9#4
  | .NOT => 0xA#4
  | .SHL => 0xB#4
  | .SHR => 0xC#4
  | .JMP => 0xD#4
  | .JZ => 0xE#4
  | .NOP => 0xF#4

/-- The mnemonic each opcode value selects under the default `OPMAP` (R62). Sixteen values, sixteen instructions
(R61), so it never answers `none`. -/
def defaultMnemonicOf (c : Opcode) : Option Mnemonic :=
  match c.toNat with
  | 0x0 => some .HALT
  | 0x1 => some .MOVI
  | 0x2 => some .MOV
  | 0x3 => some .LOAD
  | 0x4 => some .STORE
  | 0x5 => some .ADD
  | 0x6 => some .SUB
  | 0x7 => some .AND
  | 0x8 => some .OR
  | 0x9 => some .XOR
  | 0xA => some .NOT
  | 0xB => some .SHL
  | 0xC => some .SHR
  | 0xD => some .JMP
  | 0xE => some .JZ
  | 0xF => some .NOP
  | _ => none

/-- The default `OPMAP` (R62, D1; spec/opcode_table.json). -/
def defaultOpMap : OpMap where
  codeOf := defaultCodeOf
  mnemonicOf := defaultMnemonicOf

/-- The instruction a mnemonic and the extracted fields stand for: each format takes the fields it uses (R58). -/
def instrOf (k : Mnemonic) (f : Fields) : Instr :=
  match k with
  | .HALT => .halt
  | .MOVI => .movi f.rd f.imm9
  | .MOV => .mov f.rd f.rs
  | .LOAD => .load f.rd f.rs
  | .STORE => .store f.rd f.rs
  | .ADD => .add f.rd f.rs
  | .SUB => .sub f.rd f.rs
  | .AND => .and f.rd f.rs
  | .OR => .or f.rd f.rs
  | .XOR => .xor f.rd f.rs
  | .NOT => .not f.rd f.rs
  | .SHL => .shl f.rd
  | .SHR => .shr f.rd
  | .JMP => .jmp f.rs
  | .JZ => .jz f.rs
  | .NOP => .nop

/-- The mnemonic the dispatch acts on for an opcode value: the one `OPMAP` assigns, and NOP for a value it assigns to
none (R65, R92). -/
def OpMap.select (m : OpMap) (c : Opcode) : Mnemonic :=
  match m.mnemonicOf c with
  | some k => k
  | none => .NOP

/-- The decoder under a given `OPMAP` (R57, R61, R65). -/
def decodeWith (m : OpMap) (w : Word) : Instr := instrOf (m.select (fieldsOf w).op) (fieldsOf w)

/-- The decoder under the default `OPMAP`. -/
def decode (w : Word) : Instr := decodeWith defaultOpMap w

/-- The mnemonic of an instruction (R2). -/
def Instr.mnemonic : Instr → Mnemonic
  | .halt => .HALT
  | .movi _ _ => .MOVI
  | .mov _ _ => .MOV
  | .load _ _ => .LOAD
  | .store _ _ => .STORE
  | .add _ _ => .ADD
  | .sub _ _ => .SUB
  | .and _ _ => .AND
  | .or _ _ => .OR
  | .xor _ _ => .XOR
  | .not _ _ => .NOT
  | .shl _ => .SHL
  | .shr _ => .SHR
  | .jmp _ => .JMP
  | .jz _ => .JZ
  | .nop => .NOP

/-- The word of the register form: `(op << 12) | (rd << 9) | (rs << 6)` (R60). -/
def wordOfRegs (op : Opcode) (rd rs : Reg) : Word :=
  (op.setWidth 16 <<< 12) ||| ((bitsOfReg rd).setWidth 16 <<< 9) ||| ((bitsOfReg rs).setWidth 16 <<< 6)

/-- The word of the immediate form: `(op << 12) | (rd << 9) | (imm & 0x1FF)` (R60). -/
def wordOfImm (op : Opcode) (rd : Reg) (imm : Imm9) : Word :=
  (op.setWidth 16 <<< 12) ||| ((bitsOfReg rd).setWidth 16 <<< 9) ||| imm.setWidth 16

/-- The encoder under a given `OPMAP`: the canonical word of an instruction (R60, R62). That unused fields are 0 is the
spec's decision D7 (R60, R75): notes/assumptions/15.md. -/
def encodeWith (m : OpMap) (i : Instr) : Word :=
  match i with
  | .halt => wordOfRegs (m.codeOf .HALT) 0 0
  | .movi rd imm => wordOfImm (m.codeOf .MOVI) rd imm
  | .mov rd rs => wordOfRegs (m.codeOf .MOV) rd rs
  | .load rd rs => wordOfRegs (m.codeOf .LOAD) rd rs
  | .store rd rs => wordOfRegs (m.codeOf .STORE) rd rs
  | .add rd rs => wordOfRegs (m.codeOf .ADD) rd rs
  | .sub rd rs => wordOfRegs (m.codeOf .SUB) rd rs
  | .and rd rs => wordOfRegs (m.codeOf .AND) rd rs
  | .or rd rs => wordOfRegs (m.codeOf .OR) rd rs
  | .xor rd rs => wordOfRegs (m.codeOf .XOR) rd rs
  | .not rd rs => wordOfRegs (m.codeOf .NOT) rd rs
  | .shl rd => wordOfRegs (m.codeOf .SHL) rd 0
  | .shr rd => wordOfRegs (m.codeOf .SHR) rd 0
  | .jmp rs => wordOfRegs (m.codeOf .JMP) 0 rs
  | .jz rs => wordOfRegs (m.codeOf .JZ) 0 rs
  | .nop => wordOfRegs (m.codeOf .NOP) 0 0

/-- The encoder under the default `OPMAP`. -/
def encode (i : Instr) : Word := encodeWith defaultOpMap i

/-- The bits of a word that an instruction of this format uses; the others are ignored (R58, R64). -/
def Format.usedBits : Format → Word
  | .RR => 0xFFC0#16
  | .RD => 0xFE00#16
  | .RS => 0xF1C0#16
  | .I => 0xFFFF#16
  | .N => 0xF000#16

/-- The bits of the word `w` that the instruction it selects uses (R58, R64). -/
def usedBitsOf (m : OpMap) (w : Word) : Word := (m.select (fieldsOf w).op).format.usedBits

/-- The cell that holds a table word of `nbits` bits, every bit above them 0 (R55: an instruction is one cell). -/
def tableCell (nbits w : Nat) : Word := BitVec.ofNat 16 (w % 2 ^ nbits)

/-- The instruction the decoder reads from a table word. A word of more than 16 bits is no instruction of this
machine (R55). -/
def decodeTableWord (nbits w : Nat) : Option Instr :=
  if nbits ≤ 16 then some (decode (tableCell nbits w)) else none

end Sys2Proof
end

