-- ==== Sys2Proof/Machine/State.lean ====
section
/-! DEFINITION. The state of the machine, all of it and nothing else (spec/10_state.md R10 to R24), its value after
construction, and the reasons a step could stop. -/

namespace Sys2Proof.Machine

/-- One listed memory cell: its address and its 16-bit contents (R19, R31). The machine has no bytes (R38), so a cell
is a word: notes/assumptions/1.md. -/
abbrev Cell := Nat × Word

/-- What a cell that the memory does not list reads as: memory is "zero-initialized at construction" (R19, R22). -/
def unlistedCell : Word := 0x0000#16

/-- The memory behind the bus (R19): the listed cells, in the canonical form of `Memory.wf`. -/
structure Memory where
  cells : List Cell
deriving DecidableEq, Repr

/-- The cells from address `lo` on are in canonical form: addresses strictly rising and below `MEM_CELLS`, and no cell
listed that holds what an unlisted one reads as. -/
def cellsWf : Nat → List Cell → Bool
  | _, [] => true
  | lo, (k, v) :: rest =>
    decide (lo ≤ k) && decide (k < Config.memCells) && decide (v ≠ unlistedCell) && cellsWf (k + 1) rest

/-- The memory is in canonical form, so that memories that read alike are equal data: notes/assumptions/4.md. -/
def Memory.wf (m : Memory) : Bool := cellsWf 0 m.cells

/-- The flag register: three independent flags, with no layout as a word (R14). -/
structure Flags where
  z : Bool
  c : Bool
  n : Bool
deriving DecidableEq, Repr

/-- The whole state of one machine instance (R10 to R19). Every bit pattern of every field is legal (R18). -/
structure State where
  /-- `x[0]` to `x[7]`, the general registers (R10). -/
  x : Vector Word 8
  /-- The program counter: between steps, the address of the next instruction (R12). -/
  pc : Word
  /-- Zero, Carry and Negative (R14). -/
  flags : Flags
  /-- The halted indicator (R16). -/
  halted : Bool
  /-- The instruction register: the word most recently fetched (R17). -/
  ir : Word
  /-- The 65536 cells behind the bus (R19). -/
  mem : Memory
deriving DecidableEq, Repr

/-- The reasons the machine stops with a fault. There is none: "nothing inside `step()` can fail" (R130, R90), so the
type has no constructor and no definition can raise one. -/
inductive Fault
deriving DecidableEq, Repr

/-- The reasons the model refuses an instruction. -/
inductive Refusal
  /-- Raised only by an arm of `exec` whose instruction has no meaning yet, under the table's mnemonic; safe. No arm
  raises it: all sixteen instructions have their meaning. -/
  | notModelled (mnemonic : String)
deriving DecidableEq, Repr

/-- The machine right after construction: "Running, all registers/flags/PC zero", memory zero (R22, R150). The value
of `ir` is the spec's decision D2: notes/assumptions/3.md. -/
def State.reset : State where
  x := Vector.replicate 8 0x0000#16
  pc := Config.resetPc
  flags := ⟨false, false, false⟩
  halted := false
  ir := 0x0000#16
  mem := ⟨[]⟩

end Sys2Proof.Machine
end

