-- ==== Sys2Proof/Machine/Ops.lean ====
section
/-! DEFINITION. The named operations over registers and memory: every read and write of a meaning or a step goes
through these. Taking an exception and returning from one have no operation here because the machine has none: the set
of exceptions is empty, there is no trap entry and no return (spec/60_exceptions.md R130, R134, R135). -/

namespace Sys2Proof.Machine

/-- The value of general register `r` (R7 `x[i]`, R10). -/
def State.reg (s : State) (r : Reg) : Word := s.x[r]

/-- Write general register `r` (R7 `x[i] <- v`). No register is hard-wired (R10). -/
def State.setReg (s : State) (r : Reg) (v : Word) : State := { s with x := s.x.set r v }

/-- `pc <- target` (R7). -/
def State.setPc (s : State) (target : Word) : State := { s with pc := target }

/-- Write all three flags at once (R86 `SetFlags`). -/
def State.setFlags (s : State) (f : Flags) : State := { s with flags := f }

/-- `halted <- 1` (R7, R16). -/
def State.setHalted (s : State) : State := { s with halted := true }

/-- Latch a fetched word in the instruction register (R17). -/
def State.setIr (s : State) (w : Word) : State := { s with ir := w }

/-- Replace the memory, after a bus write. -/
def State.setMem (s : State) (m : Memory) : State := { s with mem := m }

/-- What the list of cells holds at an address: the listed contents, or what an unlisted cell reads as. -/
def cellAt : List Cell → Nat → Word
  | [], _ => unlistedCell
  | (k, v) :: rest, a => if k = a then v else cellAt rest a

/-- The list of cells with the contents of one address replaced, in canonical form: writing what an unlisted cell
reads as removes the entry. -/
def putCell : List Cell → Nat → Word → List Cell
  | [], a, v => if v = unlistedCell then [] else [(a, v)]
  | (k, w) :: rest, a, v =>
    if a < k then
      if v = unlistedCell then (k, w) :: rest else (a, v) :: (k, w) :: rest
    else if a = k then
      if v = unlistedCell then rest else (a, v) :: rest
    else (k, w) :: putCell rest a v

/-- A bus read with `cells` as `MEM_CELLS` (R32, R34): the contents of the cell; 0x0000, and no error, outside the
memory. -/
def busRead (cells : Nat) (m : Memory) (addr : Word) : Word :=
  if addr.toNat < cells then cellAt m.cells addr.toNat else 0x0000#16

/-- A bus write with `cells` as `MEM_CELLS` (R33, R34): the cell is replaced whole; outside the memory nothing
changes, and it is no error. -/
def busWrite (cells : Nat) (m : Memory) (addr v : Word) : Memory :=
  if addr.toNat < cells then ⟨putCell m.cells addr.toNat v⟩ else m

/-- `MemRead(addr, 1)` (R32), over the 65536 cells of this hardware. -/
def memRead (m : Memory) (addr : Word) : Word := busRead Config.memCells m addr

/-- `MemWrite(addr, 1, v)` (R33), over the 65536 cells of this hardware. -/
def memWrite (m : Memory) (addr v : Word) : Memory := busWrite Config.memCells m addr v

/-- `(pc + 1) mod 2^16`: the address of the next cell (R12, R82). -/
def nextPc (pc : Word) : Word := pc + 0x0001#16

/-- The fetch phase and the advance (R81): `ir <- MemRead(pc, 1)`, then `pc <- (pc + 1) mod 2^16`. -/
def State.fetch (s : State) : State := (s.setIr (memRead s.mem s.pc)).setPc (nextPc s.pc)

end Sys2Proof.Machine
end

