-- ==== Sys2Proof/Machine/Flags.lean ====
section
/-! DEFINITION. Every flag computation of the machine (spec/40_fde_cycle.md R86, spec/10_state.md R15). -/

namespace Sys2Proof.Machine

/-- `FlagsZN(r, c)` (R86): Zero iff the 16-bit result is 0, Negative iff its bit 15 is set, Carry as given. -/
def flagsZN (r : Word) (c : Bool) : Flags where
  z := r == 0x0000#16
  c := c
  n := r.getLsbD 15

/-- Carry of ADD (R105): the untruncated 17-bit sum exceeds 0xFFFF. -/
def addCarry (a b : Word) : Bool := decide (a.toNat + b.toNat > 0xFFFF)

/-- Carry of SUB (R106): "no borrow occurred", that is, `a >= b` unsigned. -/
def subNoBorrow (a b : Word) : Bool := decide (a.toNat ≥ b.toNat)

/-- Carry of SHL (R115): the bit shifted out of position 15. -/
def shlCarry (a : Word) : Bool := a.getLsbD 15

/-- Carry of SHR (R116): the bit shifted out of position 0. -/
def shrCarry (a : Word) : Bool := a.getLsbD 0

/-- Carry of MOVI, MOV, LOAD, AND, OR, XOR and NOT: cleared (R15, R86). For MOVI this is the resolution C2 of
spec/90_conflicts.md: notes/assumptions/10.md. -/
def carryCleared : Bool := false

/-- Write a result to its destination register and all three flags from it: the end of every flag-affecting
instruction (R86). -/
def State.writeResult (s : State) (rd : Reg) (r : Word) (c : Bool) : State :=
  (s.setReg rd r).setFlags (flagsZN r c)

end Sys2Proof.Machine
end

