-- ==== Sys2Proof/Machine/Operands.lean ====
section
/-! DEFINITION. Every operand form of the machine: a register, the zero-extended immediate, a memory cell addressed by
a register, and a jump target in a register (spec/30_encoding.md R58, R59, R73). -/

namespace Sys2Proof.Machine

/-- The value of the immediate operand, `zext_16(imm9)`: not sign-extended, scaled or shifted (R59). -/
def immValue (imm : Imm9) : Word := imm.setWidth 16

/-- The effective address of LOAD and STORE: the whole register, no offset (R102, R103). -/
def State.effectiveAddr (s : State) (rs : Reg) : Word := s.reg rs

/-- The register-indirect memory operand of LOAD: the cell at the effective address (R102). -/
def State.loadOperand (s : State) (rs : Reg) : Word := memRead s.mem (s.effectiveAddr rs)

/-- Write the register-indirect memory operand of STORE (R103). -/
def State.storeOperand (s : State) (rs : Reg) (v : Word) : State :=
  s.setMem (memWrite s.mem (s.effectiveAddr rs) v)

/-- The target of JMP and JZ: the whole register, an absolute cell address (R120, R121). -/
def State.jumpTarget (s : State) (rs : Reg) : Word := s.reg rs

end Sys2Proof.Machine
end

