-- ==== Sys2Proof/Machine/Arithmetic.lean ====
section
/-! DEFINITION. The execute bodies of ADD and SUB (spec/42_arithmetic.md): computed over the integers, then reduced
modulo 2^16 (R107). -/

namespace Sys2Proof.Machine

/-- ADD (R105): `r = (a + b) mod 2^16`, Carry iff the integer sum exceeds 0xFFFF. -/
def execAdd (rd rs : Reg) (s : State) : Host.Outcome State Fault Refusal :=
  .next (s.writeResult rd (BitVec.ofNat 16 ((s.reg rd).toNat + (s.reg rs).toNat)) (addCarry (s.reg rd) (s.reg rs)))

/-- SUB (R106): `r = (a - b) mod 2^16`, Carry iff no borrow occurred. -/
def execSub (rd rs : Reg) (s : State) : Host.Outcome State Fault Refusal :=
  .next (s.writeResult rd (BitVec.ofInt 16 ((s.reg rd).toNat - (s.reg rs).toNat)) (subNoBorrow (s.reg rd) (s.reg rs)))

end Sys2Proof.Machine
end

