-- ==== Sys2Proof/Machine/ControlSystem.lean ====
section
/-! DEFINITION. The execute bodies of JMP, JZ, HALT and NOP (spec/45_control_system.md). `pc` already holds the address
of the next cell (R82), so a body that does not write it falls through. -/

namespace Sys2Proof.Machine

/-- JMP, unconditional and register-indirect (R120). -/
def execJmp (rs : Reg) (s : State) : Host.Outcome State Fault Refusal :=
  .next (s.setPc (s.jumpTarget rs))

/-- JZ (R121): jumps when the Zero flag is set, else no effect. -/
def execJz (rs : Reg) (s : State) : Host.Outcome State Fault Refusal :=
  .next (if s.flags.z then s.setPc (s.jumpTarget rs) else s)

/-- HALT (R122): sets the halted indicator and nothing else. -/
def execHalt (s : State) : Host.Outcome State Fault Refusal :=
  .next s.setHalted

/-- NOP (R123): no effect. -/
def execNop (s : State) : Host.Outcome State Fault Refusal :=
  .next s

end Sys2Proof.Machine
end

