-- ==== Sys2Proof/Machine/DataMovement.lean ====
section
/-! DEFINITION. The execute bodies of MOVI, MOV, LOAD and STORE (spec/41_data_movement.md). Like every meaning, each
takes the state after the fetch and the advance of `pc` (R81). -/

namespace Sys2Proof.Machine

/-- MOVI, load immediate (R100). -/
def execMovi (rd : Reg) (imm : Imm9) (s : State) : Host.Outcome State Fault Refusal :=
  .next (s.writeResult rd (immValue imm) carryCleared)

/-- MOV, register copy (R101). -/
def execMov (rd rs : Reg) (s : State) : Host.Outcome State Fault Refusal :=
  .next (s.writeResult rd (s.reg rs) carryCleared)

/-- LOAD, register-indirect (R102): the address is the value of `x[rs]` before the write. -/
def execLoad (rd rs : Reg) (s : State) : Host.Outcome State Fault Refusal :=
  .next (s.writeResult rd (s.loadOperand rs) carryCleared)

/-- STORE, register-indirect (R103): stores `x[rd]` in the cell `x[rs]`; no register and no flag is written. -/
def execStore (rd rs : Reg) (s : State) : Host.Outcome State Fault Refusal :=
  .next (s.storeOperand rs (s.reg rd))

end Sys2Proof.Machine
end

