-- ==== Sys2Proof/Machine/Logic.lean ====
section
/-! DEFINITION. The execute bodies of AND, OR, XOR and NOT (spec/43_logic.md). -/

namespace Sys2Proof.Machine

/-- AND, bitwise conjunction (R110). -/
def execAnd (rd rs : Reg) (s : State) : Host.Outcome State Fault Refusal :=
  .next (s.writeResult rd (s.reg rd &&& s.reg rs) carryCleared)

/-- OR, bitwise disjunction (R111). -/
def execOr (rd rs : Reg) (s : State) : Host.Outcome State Fault Refusal :=
  .next (s.writeResult rd (s.reg rd ||| s.reg rs) carryCleared)

/-- XOR, bitwise exclusive or (R112). -/
def execXor (rd rs : Reg) (s : State) : Host.Outcome State Fault Refusal :=
  .next (s.writeResult rd (s.reg rd ^^^ s.reg rs) carryCleared)

/-- NOT, the complement of the SOURCE register in the destination (R113; spec/90_conflicts.md C7). -/
def execNot (rd rs : Reg) (s : State) : Host.Outcome State Fault Refusal :=
  .next (s.writeResult rd (~~~(s.reg rs)) carryCleared)

end Sys2Proof.Machine
end

