-- ==== Sys2Proof/Machine/Shift.lean ====
section
/-! DEFINITION. The execute bodies of SHL and SHR (spec/44_shift.md): one place, in the register `rd`. -/

namespace Sys2Proof.Machine

/-- SHL, shift left by one (R115): 0 is shifted in, bit 15 goes to Carry. -/
def execShl (rd : Reg) (s : State) : Host.Outcome State Fault Refusal :=
  .next (s.writeResult rd (s.reg rd <<< 1) (shlCarry (s.reg rd)))

/-- SHR, logical shift right by one (R116): 0 is shifted in, bit 0 goes to Carry. -/
def execShr (rd : Reg) (s : State) : Host.Outcome State Fault Refusal :=
  .next (s.writeResult rd (s.reg rd >>> 1) (shrCarry (s.reg rd)))

end Sys2Proof.Machine
end

