-- ==== Sys2Proof/Machine/Step.lean ====
section
/-! DEFINITION. One step of the machine (spec/40_fde_cycle.md R81): nothing when halted; else fetch, advance, decode,
execute, as one transition (R91). -/

namespace Sys2Proof.Machine

/-- One step under a given `OPMAP` (R81). A step taken while halted is the identity (R83). -/
def stepWith (m : OpMap) (s : State) : Host.Outcome State Fault Refusal :=
  if s.halted then .next s else exec (decodeWith m s.fetch.ir) s.fetch

/-- One step of the machine, under the default `OPMAP` (R62). -/
def step (s : State) : Host.Outcome State Fault Refusal := stepWith defaultOpMap s

/-- The state with a table word in the cell the next step fetches. It stands for the host's load of a program (R48,
R153); a halted machine fetches nothing, so its indicator is cleared: notes/assumptions/9.md. -/
def State.withFetchWord (s : State) (nbits w : Nat) : State :=
  { s.setMem (memWrite s.mem s.pc (tableCell nbits w)) with halted := false }

end Sys2Proof.Machine
end

