-- ==== Sys2Proof/Machine/Bus.lean ====
section
/-! DEFINITION. The bus transactions of a step (spec/20_memory.md R46) and the spec's sketch of the bus as wires (R47).
They describe what a step does on the bus; they are no part of the state (R18, R21) and `step` does not call them. -/

namespace Sys2Proof.Machine

/-- One bus transaction: a read of one cell, or a write of one cell with its data (R35, R46). -/
inductive Transaction
  | read (addr : Word)
  | write (addr data : Word)
deriving DecidableEq, Repr

/-- The data transaction of an instruction (R46), if it makes one, from the state before any write of it. -/
def dataTransaction (i : Instr) (s : State) : Option Transaction :=
  match i with
  | .load _ rs => some (.read (s.reg rs))
  | .store rd rs => some (.write (s.reg rs) (s.reg rd))
  | .halt | .movi _ _ | .mov _ _ | .add _ _ | .sub _ _ | .and _ _ | .or _ _ | .xor _ _ | .not _ _ | .shl _ | .shr _
  | .jmp _ | .jz _ | .nop => none

/-- The bus transactions of one step, in order (R46): none when halted; else the fetch from `pc`, then the data
transaction of LOAD or STORE. -/
def transactionsWith (m : OpMap) (s : State) : List Transaction :=
  if s.halted then []
  else .read s.pc :: (dataTransaction (decodeWith m (memRead s.mem s.pc)) s).toList

/-- What a transaction does to the memory (R32, R33): a read nothing, a write the replacement of its cell. -/
def Transaction.apply (m : Memory) : Transaction → Memory
  | .read _ => m
  | .write addr data => memWrite m addr data

/-- Whether a transaction is a write. -/
def Transaction.isWrite : Transaction → Bool
  | .read _ => false
  | .write _ _ => true

/-- The wires of the bus during a transaction (R47, the spec's own sketch): `wdata` has a value only in a write. -/
structure BusSignals where
  addr : Option Word
  wdata : Option Word
  re : Bool
  we : Bool
deriving DecidableEq, Repr

/-- The signals a transaction drives (R47). -/
def Transaction.signals : Transaction → BusSignals
  | .read addr => ⟨some addr, none, true, false⟩
  | .write addr data => ⟨some addr, some data, false, true⟩

/-- The signals outside any transaction: `re = we = 0` (R47). -/
def idleSignals : BusSignals := ⟨none, none, false, false⟩

/-- `rdata` (R47): the contents of the addressed cell, sampled only in a read. -/
def Transaction.rdata (m : Memory) : Transaction → Option Word
  | .read addr => some (memRead m addr)
  | .write _ _ => none

end Sys2Proof.Machine
end

