-- ==== Sys2Proof/Machine/Datapath.lean ====
section
/-! DEFINITION. The hardware reading of a step (spec/40_fde_cycle.md R87, R88): the ALU as one combinational function,
the decoder's control outputs as a table, and the datapath they drive. It is a second description of what `exec` and
`step` do, written from the two tables and not from the instruction rules; `step` does not call it. -/

namespace Sys2Proof.Machine

/-- The ALU operations of R87. -/
inductive AluOp
  | PASS_B | ADD | SUB | AND | OR | XOR | NOT_B | SHL1 | SHR1
deriving DecidableEq, Repr

/-- The 17-bit sum of two words (R87: the carry of ADD is its bit 16). -/
def sum17 (a b : Word) : BitVec 17 := a.setWidth 17 + b.setWidth 17

/-- The ALU (R87): the 16-bit result and the carry passed to `FlagsZN`. -/
def alu (op : AluOp) (a b : Word) : Word × Bool :=
  match op with
  | .PASS_B => (b, false)
  | .ADD => ((sum17 a b).setWidth 16, (sum17 a b).getLsbD 16)
  | .SUB => (a - b, b.ule a)
  | .AND => (a &&& b, false)
  | .OR => (a ||| b, false)
  | .XOR => (a ^^^ b, false)
  | .NOT_B => (0xFFFF#16 - b, false)
  | .SHL1 => (a.extractLsb' 0 15 ++ 0#1, a.getLsbD 15)
  | .SHR1 => (0#1 ++ a.extractLsb' 1 15, a.getLsbD 0)

/-- Where the ALU's input `b` comes from (R88). -/
inductive BSource
  | none | imm | reg | mem
deriving DecidableEq, Repr

/-- The data bus transaction of the execute phase (R88): a read or a write at `x[rs]`. -/
inductive DataBus
  | none | read | write
deriving DecidableEq, Repr

/-- When `pc` is loaded from `x[rs]` (R88). -/
inductive PcLoad
  | no | always | ifZero
deriving DecidableEq, Repr

/-- The decoder's control outputs (R88): one field a column of the table. -/
structure Control where
  aluOp : Option AluOp
  aFromRd : Bool
  bSource : BSource
  regWrite : Bool
  flagsWrite : Bool
  dataBus : DataBus
  pcLoad : PcLoad
  setsHalted : Bool
deriving DecidableEq, Repr

/-- The table of control outputs (R88), one row an instruction. -/
def controls : Mnemonic → Control
  | .HALT => ⟨none, false, .none, false, false, .none, .no, true⟩
  | .MOVI => ⟨some .PASS_B, false, .imm, true, true, .none, .no, false⟩
  | .MOV => ⟨some .PASS_B, false, .reg, true, true, .none, .no, false⟩
  | .LOAD => ⟨some .PASS_B, false, .mem, true, true, .read, .no, false⟩
  | .STORE => ⟨none, false, .none, false, false, .write, .no, false⟩
  | .ADD => ⟨some .ADD, true, .reg, true, true, .none, .no, false⟩
  | .SUB => ⟨some .SUB, true, .reg, true, true, .none, .no, false⟩
  | .AND => ⟨some .AND, true, .reg, true, true, .none, .no, false⟩
  | .OR => ⟨some .OR, true, .reg, true, true, .none, .no, false⟩
  | .XOR => ⟨some .XOR, true, .reg, true, true, .none, .no, false⟩
  | .NOT => ⟨some .NOT_B, false, .reg, true, true, .none, .no, false⟩
  | .SHL => ⟨some .SHL1, true, .none, true, true, .none, .no, false⟩
  | .SHR => ⟨some .SHR1, true, .none, true, true, .none, .no, false⟩
  | .JMP => ⟨none, false, .none, false, false, .none, .always, false⟩
  | .JZ => ⟨none, false, .none, false, false, .none, .ifZero, false⟩
  | .NOP => ⟨none, false, .none, false, false, .none, .no, false⟩

/-- The word on the data bus of a read phase (R88): the cell `x[rs]`, when the decoder asks for a read. -/
def dataRead (c : Control) (f : Fields) (s : State) : Word :=
  match c.dataBus with
  | .read => memRead s.mem (s.reg f.rs)
  | .none | .write => 0x0000#16

/-- The ALU's input `a` (R88); 0 where the table gives it no source. -/
def aInput (c : Control) (f : Fields) (s : State) : Word := if c.aFromRd then s.reg f.rd else 0x0000#16

/-- The ALU's input `b` (R88); 0 where the table gives it no source. -/
def bInput (c : Control) (f : Fields) (s : State) : Word :=
  match c.bSource with
  | .none => 0x0000#16
  | .imm => f.imm9.setWidth 16
  | .reg => s.reg f.rs
  | .mem => dataRead c f s

/-- The ALU's outputs (R87, R88); idle where the table names no operation. -/
def aluOutput (c : Control) (f : Fields) (s : State) : Word × Bool :=
  match c.aluOp with
  | some op => alu op (aInput c f s) (bInput c f s)
  | none => (0x0000#16, false)

/-- Whether `pc` is loaded from `x[rs]` in this execute phase (R88). -/
def loadsPc (c : Control) (s : State) : Bool :=
  match c.pcLoad with
  | .no => false
  | .always => true
  | .ifZero => s.flags.z

/-- The execute phase as the control outputs drive it (R88): every field of the next state from the state after the
fetch, all inputs read before any write. -/
def datapath (c : Control) (f : Fields) (s : State) : State where
  x := if c.regWrite then s.x.set f.rd (aluOutput c f s).1 else s.x
  pc := if loadsPc c s then s.reg f.rs else s.pc
  flags := if c.flagsWrite then flagsZN (aluOutput c f s).1 (aluOutput c f s).2 else s.flags
  halted := s.halted || c.setsHalted
  ir := s.ir
  mem := match c.dataBus with
    | .write => memWrite s.mem (s.reg f.rs) (s.reg f.rd)
    | .none | .read => s.mem

/-- One step of the hardware reading (R81, R88): the fetched word's fields and its opcode's control outputs drive the
datapath; a halted machine keeps its state (R83). -/
def datapathStep (m : OpMap) (s : State) : State :=
  if s.halted then s
  else datapath (controls (m.select (fieldsOf s.fetch.ir).op)) (fieldsOf s.fetch.ir) s.fetch

end Sys2Proof.Machine
end

