-- ==== Sys2Proof/Machine/HostInterface.lean ====
section
/-! DEFINITION. What the outside world can do to the machine between two steps (spec/70_reset_and_hazards.md R150 to
R153, R158, R159; spec/20_memory.md R48; spec/40_fde_cycle.md R84, R85). Each operation is a function on whole states,
so none can fall inside a step (R152); `step` calls none of them. -/

namespace Sys2Proof.Machine

/-- Construct a new instance (R150). -/
def construct : State := State.reset

/-- Processor reset (R151), with `RESET_CLEARS_MEM` as given: the processor state is restored; memory is cleared only
if the parameter says so. -/
def State.processorResetWith (clearsMem : Bool) (s : State) : State :=
  if clearsMem then State.reset else State.reset.setMem s.mem

/-- Processor reset (R151): restores the processor state and leaves memory unchanged (D3): notes/assumptions/5.md. -/
def State.processorReset (s : State) : State := s.processorResetWith Config.resetClearsMem

/-- A bus read by the host (R48): no side effect. -/
def State.hostRead (s : State) (addr : Word) : Word := memRead s.mem addr

/-- A bus write by the host (R48): one cell; the processor state is not the host's to write (R23). -/
def State.hostWrite (s : State) (addr v : Word) : State := s.setMem (memWrite s.mem addr v)

/-- The host's load of a program or data (R153): words into consecutive cells from a load address. DESIGN CHOICE: a load
past cell 0xFFFF goes on at cell 0, which the spec does not say: notes/assumptions/16.md. -/
def State.hostLoad (s : State) (origin : Word) : List Word → State
  | [] => s
  | w :: ws => (s.hostWrite origin w).hostLoad (nextPc origin) ws

/-- The snapshot the host can read between steps (R158). -/
structure Snapshot where
  pc : Word
  x : Vector Word 8
  flags : Flags
  ir : Word
deriving DecidableEq, Repr

/-- Take the snapshot (R158, R140). -/
def State.snapshot (s : State) : Snapshot := ⟨s.pc, s.x, s.flags, s.ir⟩

/-- The status a step reports, evaluated after it (R84): `running = not halted`. -/
def State.running (s : State) : Bool := !s.halted

/-- `step()` as the host calls it: the next state and the status it reports (R84). A fault or a refusal would report
not running and leave the state; no step answers one (R90). -/
def hostStep (s : State) : State × Bool :=
  match step s with
  | .next t => (t, t.running)
  | .fault _ => (s, false)
  | .refused _ => (s, false)

/-- `run()` (R85) with at most `fuel` working steps: the final state and the count it reports, the HALT step included
and 0 on a machine already halted (D10); `none` if the fuel ends first. -/
def hostRun : Nat → State → Option (State × Nat)
  | 0, s => if s.halted then some (s, 0) else none
  | fuel + 1, s =>
    if s.halted then some (s, 0)
    else match hostRun fuel (hostStep s).1 with
      | some (t, n) => some (t, n + 1)
      | none => none

end Sys2Proof.Machine
end

