-- ==== Sys2Proof/Machine/Effects.lean ====
section
/-! DEFINITION. The spec's tables of what each instruction reads and writes (spec/10_state.md R11, R15; spec/20_memory.md R46): the
vocabulary the statements about frames are written in. No meaning calls these. -/

namespace Sys2Proof.Machine

/-- The register an instruction writes, if any (R11, column "Writes"). -/
def destReg : Instr → Option Reg
  | .movi rd _ | .mov rd _ | .load rd _ | .add rd _ | .sub rd _ | .and rd _ | .or rd _ | .xor rd _ | .not rd _
  | .shl rd | .shr rd => some rd
  | .halt | .store _ _ | .jmp _ | .jz _ | .nop => none

/-- The registers an instruction reads (R11, column "Reads"); for JZ the one it reads when taken. -/
def sourceRegs : Instr → List Reg
  | .halt | .movi _ _ | .nop => []
  | .mov _ rs | .load _ rs | .not _ rs | .jmp rs | .jz rs => [rs]
  | .store rd rs | .add rd rs | .sub rd rs | .and rd rs | .or rd rs | .xor rd rs => [rd, rs]
  | .shl rd | .shr rd => [rd]

/-- The flag-affecting instructions (R8, R86). -/
def flagAffecting : Instr → Bool
  | .movi _ _ | .mov _ _ | .load _ _ | .add _ _ | .sub _ _ | .and _ _ | .or _ _ | .xor _ _ | .not _ _ | .shl _
  | .shr _ => true
  | .halt | .store _ _ | .jmp _ | .jz _ | .nop => false

/-- The Carry a flag-affecting instruction leaves, from the register values before it (R15, column "C after"). -/
def carryAfter (i : Instr) (s : State) : Bool :=
  match i with
  | .add rd rs => decide ((s.reg rd).toNat + (s.reg rs).toNat > 0xFFFF)
  | .sub rd rs => decide ((s.reg rd).toNat ≥ (s.reg rs).toNat)
  | .shl rd => (s.reg rd).getLsbD 15
  | .shr rd => (s.reg rd).getLsbD 0
  | .movi _ _ | .mov _ _ | .load _ _ | .and _ _ | .or _ _ | .xor _ _ | .not _ _ => false
  | .halt | .store _ _ | .jmp _ | .jz _ | .nop => s.flags.c

/-- The cell an instruction stores to, if any: the effective address of STORE, from the state before it (R103, R46). -/
def storeAddr (i : Instr) (s : State) : Option Word :=
  match i with
  | .store _ rs => some (s.effectiveAddr rs)
  | .halt | .movi _ _ | .mov _ _ | .load _ _ | .add _ _ | .sub _ _ | .and _ _ | .or _ _ | .xor _ _ | .not _ _ | .shl _
  | .shr _ | .jmp _ | .jz _ | .nop => none

end Sys2Proof.Machine
end

