-- ==== Sys2Proof/Safety.lean ====
section
/-! DEFINITION. What counts as a safe run and what a statement says, in plain terms: a step or a run completes
(spec/40_fde_cycle.md R90), the state keeps its invariant, and the frames and flag values the statements are written in. -/

namespace Sys2Proof.Machine

/-- The step or the instruction answers a next state: no fault, no refusal (R90). -/
def Completes (o : Host.Outcome State Fault Refusal) : Prop := ∃ t, o = .next t

/-- Zero and Negative are not both set: a zero result has bit 15 clear (R86). -/
def Flags.exclusive (f : Flags) : Bool := !(f.z && f.n)

/-- The invariant of the machine: the memory is in canonical form, and Zero and Negative exclude each other. -/
def State.inv (s : State) : Bool := s.mem.wf && s.flags.exclusive

/-- Two states agree on everything but Carry, Negative and `ir`: all that a program can act on (R15, R17). -/
def State.agreeVisible (s t : State) : Prop :=
  s.x = t.x ∧ s.pc = t.pc ∧ s.flags.z = t.flags.z ∧ s.halted = t.halted ∧ s.mem = t.mem

/-- Two states agree on the whole processor state: everything but memory (R23). -/
def State.agreeProcessor (s t : State) : Prop :=
  s.x = t.x ∧ s.pc = t.pc ∧ s.flags = t.flags ∧ s.halted = t.halted ∧ s.ir = t.ir

/-- Every memory cell reads in `t` as it reads in `s`. -/
def KeepsMemory (s t : State) : Prop := ∀ a : Word, memRead t.mem a = memRead s.mem a

/-- Every general register holds in `t` what it holds in `s`. -/
def KeepsRegs (s t : State) : Prop := ∀ r : Reg, t.reg r = s.reg r

/-- The frame of an instruction that writes register `rd` and the flags: every other register, `pc`, `halted`, `ir` and
every memory cell are as before. -/
def KeepsAllButResult (rd : Reg) (s t : State) : Prop :=
  (∀ r : Reg, r ≠ rd → t.reg r = s.reg r) ∧ t.pc = s.pc ∧ t.halted = s.halted ∧ t.ir = s.ir ∧ KeepsMemory s t

/-- The three flags are those of the 16-bit result `r` and the carry `c` (R86), said over the unsigned value of `r`:
Zero iff it is 0, Negative iff bit 15 is set, that is, iff it is at least 0x8000. -/
def FlagsAre (f : Flags) (r : Word) (c : Prop) : Prop :=
  (f.z = true ↔ r.toNat = 0) ∧ (f.c = true ↔ c) ∧ (f.n = true ↔ r.toNat ≥ 0x8000)

/-- Under every well-formed `OPMAP`, a word whose opcode field holds the number of `k` decodes to `f` of its fields
(R58, R61): the bits `f` does not take are ignored (R64). -/
def SelectedBy (k : Mnemonic) (f : Fields → Instr) : Prop :=
  ∀ m : OpMap, m.wellFormed = true → ∀ w : Word, (fieldsOf w).op = m.codeOf k → decodeWith m w = f (fieldsOf w)

/-- The instruction the next step of a running machine executes under `m`: the decoding of the word at `pc`. -/
def nextInstr (m : OpMap) (s : State) : Instr := decodeWith m (memRead s.mem s.pc)

/-- What a list of writes (address, value) leaves in the cell `a`: the value of the last write to `a`, else `v0` (R41). -/
def lastWritten (a v0 : Word) : List (Word × Word) → Word
  | [] => v0
  | (b, v) :: rest => lastWritten a (if b = a then v else v0) rest

end Sys2Proof.Machine
end

