-- ==== Sys2Proof/Certificates/Slice0/Obligations.lean ====
section
/-! DEFINITION. The statements about the machine, for the provers. `exec i s` is the execute body of `i` in the state
`s` after the fetch and the advance of `pc` (R81), so "`pc` is unchanged" below means that it stays at the advanced
value. No instruction stops anywhere, so every statement about an instruction concludes that it answers a next state.
The opcode numbers are quantified (`OpMap`) wherever a statement does not name a word. -/

open Sys2Proof Sys2Proof.Machine

/-! ## Data movement -/

/-- R100: MOVI writes the zero-extended immediate; Zero from it, Negative and Carry cleared; nothing else. Format `I`
under every `OPMAP`. -/
def Obligations.MoviLoadsZeroExtendedImmediate : Prop :=
  SelectedBy .MOVI (fun f => .movi f.rd f.imm9) ∧
  ∀ (rd : Reg) (imm : Imm9) (s : State), ∃ t, exec (.movi rd imm) s = .next t ∧
    (t.reg rd).toNat = imm.toNat ∧
    (t.flags.z = true ↔ imm.toNat = 0) ∧ t.flags.n = false ∧ t.flags.c = false ∧
    KeepsAllButResult rd s t

/-- R101: MOV copies the source register whole; Zero and Negative from it, Carry cleared. -/
def Obligations.MovCopiesRegister : Prop :=
  SelectedBy .MOV (fun f => .mov f.rd f.rs) ∧
  ∀ (rd rs : Reg) (s : State), ∃ t, exec (.mov rd rs) s = .next t ∧
    t.reg rd = s.reg rs ∧ FlagsAre t.flags (s.reg rs) False ∧ KeepsAllButResult rd s t

/-- R102: LOAD reads the cell whose address is the old value of `x[rs]`; flags from the loaded value. -/
def Obligations.LoadReadsAddressedCell : Prop :=
  SelectedBy .LOAD (fun f => .load f.rd f.rs) ∧
  ∀ (rd rs : Reg) (s : State), ∃ t, exec (.load rd rs) s = .next t ∧
    t.reg rd = memRead s.mem (s.reg rs) ∧ FlagsAre t.flags (memRead s.mem (s.reg rs)) False ∧
    KeepsAllButResult rd s t

/-- R103: STORE writes the whole of `x[rd]` to the cell `x[rs]`, the effective address its meaning uses, and changes no
other cell, no register and no flag. Reading the cell back needs the canonical form of memory, an invariant of every
step (`Obligations.StepKeepsInvariant`). -/
def Obligations.StoreWritesAddressedCell : Prop :=
  SelectedBy .STORE (fun f => .store f.rd f.rs) ∧
  ∀ (rd rs : Reg) (s : State), ∃ t, exec (.store rd rs) s = .next t ∧
    (s.mem.wf = true → memRead t.mem (s.effectiveAddr rs) = s.reg rd) ∧
    (∀ a : Word, a ≠ s.effectiveAddr rs → memRead t.mem a = memRead s.mem a) ∧
    KeepsRegs s t ∧ t.flags = s.flags ∧ t.pc = s.pc ∧ t.halted = s.halted ∧ t.ir = s.ir

/-! ## Arithmetic -/

/-- R105: ADD over the integers, reduced modulo 2^16; Carry iff the untruncated sum exceeds 0xFFFF. -/
def Obligations.AddWrapsAndCarries : Prop :=
  SelectedBy .ADD (fun f => .add f.rd f.rs) ∧
  ∀ (rd rs : Reg) (s : State), ∃ t, exec (.add rd rs) s = .next t ∧
    (t.reg rd).toNat = ((s.reg rd).toNat + (s.reg rs).toNat) % 65536 ∧
    FlagsAre t.flags (t.reg rd) ((s.reg rd).toNat + (s.reg rs).toNat > 0xFFFF) ∧
    KeepsAllButResult rd s t

/-- R106: SUB over the integers, reduced modulo 2^16; Carry iff no borrow occurred. -/
def Obligations.SubWrapsAndReportsNoBorrow : Prop :=
  SelectedBy .SUB (fun f => .sub f.rd f.rs) ∧
  ∀ (rd rs : Reg) (s : State), ∃ t, exec (.sub rd rs) s = .next t ∧
    ((t.reg rd).toNat : Int) = (((s.reg rd).toNat : Int) - ((s.reg rs).toNat : Int)) % 65536 ∧
    FlagsAre t.flags (t.reg rd) ((s.reg rd).toNat ≥ (s.reg rs).toNat) ∧
    KeepsAllButResult rd s t

/-! ## Logic -/

/-- R110: AND, bit by bit; Zero and Negative from the result, Carry cleared. -/
def Obligations.AndIsBitwise : Prop :=
  SelectedBy .AND (fun f => .and f.rd f.rs) ∧
  ∀ (rd rs : Reg) (s : State), ∃ t, exec (.and rd rs) s = .next t ∧
    (∀ k, k < 16 → ((t.reg rd).getLsbD k = true ↔ (s.reg rd).getLsbD k = true ∧ (s.reg rs).getLsbD k = true)) ∧
    FlagsAre t.flags (t.reg rd) False ∧ KeepsAllButResult rd s t

/-- R111: OR, bit by bit; Zero and Negative from the result, Carry cleared. -/
def Obligations.OrIsBitwise : Prop :=
  SelectedBy .OR (fun f => .or f.rd f.rs) ∧
  ∀ (rd rs : Reg) (s : State), ∃ t, exec (.or rd rs) s = .next t ∧
    (∀ k, k < 16 → ((t.reg rd).getLsbD k = true ↔ (s.reg rd).getLsbD k = true ∨ (s.reg rs).getLsbD k = true)) ∧
    FlagsAre t.flags (t.reg rd) False ∧ KeepsAllButResult rd s t

/-- R112: XOR, bit by bit; Zero and Negative from the result, Carry cleared. -/
def Obligations.XorIsBitwise : Prop :=
  SelectedBy .XOR (fun f => .xor f.rd f.rs) ∧
  ∀ (rd rs : Reg) (s : State), ∃ t, exec (.xor rd rs) s = .next t ∧
    (∀ k, k < 16 → ((t.reg rd).getLsbD k = true ↔ (s.reg rd).getLsbD k ≠ (s.reg rs).getLsbD k)) ∧
    FlagsAre t.flags (t.reg rd) False ∧ KeepsAllButResult rd s t

/-- R113: NOT writes the complement of the SOURCE register; Zero and Negative from the result, Carry cleared. -/
def Obligations.NotComplementsSource : Prop :=
  SelectedBy .NOT (fun f => .not f.rd f.rs) ∧
  ∀ (rd rs : Reg) (s : State), ∃ t, exec (.not rd rs) s = .next t ∧
    (t.reg rd).toNat = 65535 - (s.reg rs).toNat ∧
    FlagsAre t.flags (t.reg rd) False ∧ KeepsAllButResult rd s t

/-! ## Shifts -/

/-- R115: SHL doubles the register modulo 2^16; Carry is the bit shifted out of position 15. -/
def Obligations.ShlShiftsLeftByOne : Prop :=
  SelectedBy .SHL (fun f => .shl f.rd) ∧
  ∀ (rd : Reg) (s : State), ∃ t, exec (.shl rd) s = .next t ∧
    (t.reg rd).toNat = (2 * (s.reg rd).toNat) % 65536 ∧
    FlagsAre t.flags (t.reg rd) ((s.reg rd).getLsbD 15 = true) ∧ KeepsAllButResult rd s t

/-- R116: SHR halves the register, filling with 0; Carry is the bit shifted out of position 0; Negative is 0. -/
def Obligations.ShrShiftsRightLogically : Prop :=
  SelectedBy .SHR (fun f => .shr f.rd) ∧
  ∀ (rd : Reg) (s : State), ∃ t, exec (.shr rd) s = .next t ∧
    (t.reg rd).toNat = (s.reg rd).toNat / 2 ∧ t.flags.n = false ∧
    FlagsAre t.flags (t.reg rd) ((s.reg rd).getLsbD 0 = true) ∧ KeepsAllButResult rd s t

/-! ## Control transfer and system -/

/-- R120: JMP loads `pc` with the whole register; nothing else changes. -/
def Obligations.JmpLoadsPc : Prop :=
  SelectedBy .JMP (fun f => .jmp f.rs) ∧
  ∀ (rs : Reg) (s : State), ∃ t, exec (.jmp rs) s = .next t ∧
    t.pc = s.reg rs ∧ KeepsRegs s t ∧ t.flags = s.flags ∧ t.halted = s.halted ∧ t.ir = s.ir ∧ KeepsMemory s t

/-- R121: JZ loads `pc` when Zero is set and leaves the advanced value when it is not; nothing else changes. -/
def Obligations.JzJumpsExactlyOnZero : Prop :=
  SelectedBy .JZ (fun f => .jz f.rs) ∧
  ∀ (rs : Reg) (s : State), ∃ t, exec (.jz rs) s = .next t ∧
    (s.flags.z = true → t.pc = s.reg rs) ∧ (s.flags.z = false → t.pc = s.pc) ∧
    KeepsRegs s t ∧ t.flags = s.flags ∧ t.halted = s.halted ∧ t.ir = s.ir ∧ KeepsMemory s t

/-- R122: HALT sets the halted indicator and changes nothing else. The step that runs it leaves `pc` at the address of
the HALT plus one and its word in `ir`, reports not running, and every further step is the identity. -/
def Obligations.HaltSetsHalted : Prop :=
  SelectedBy .HALT (fun _ => .halt) ∧
  (∀ s : State, ∃ t, exec .halt s = .next t ∧
    t.halted = true ∧ KeepsRegs s t ∧ t.flags = s.flags ∧ t.pc = s.pc ∧ t.ir = s.ir ∧ KeepsMemory s t) ∧
  ∀ (m : OpMap) (s : State), s.halted = false → nextInstr m s = .halt → ∃ t, stepWith m s = .next t ∧
    t.halted = true ∧ t.pc = nextPc s.pc ∧ t.ir = memRead s.mem s.pc ∧ KeepsRegs s t ∧ t.flags = s.flags ∧
    KeepsMemory s t ∧ t.running = false ∧ stepWith m t = .next t

/-- R123: NOP has no effect. The step that runs it still fetches, loads `ir` and advances `pc` by one; nothing else
changes. -/
def Obligations.NopChangesNothing : Prop :=
  SelectedBy .NOP (fun _ => .nop) ∧
  (∀ s : State, ∃ t, exec .nop s = .next t ∧
    KeepsRegs s t ∧ t.flags = s.flags ∧ t.pc = s.pc ∧ t.halted = s.halted ∧ t.ir = s.ir ∧ KeepsMemory s t) ∧
  ∀ (m : OpMap) (s : State), s.halted = false → nextInstr m s = .nop →
    stepWith m s = .next { s with ir := memRead s.mem s.pc, pc := nextPc s.pc }

/-! ## The step -/

/-- R81: a halted machine does nothing; a running one latches the word at `pc`, advances `pc` by one cell, decodes the
latched word and executes it. `step` is the step under the default numbering. -/
def Obligations.StepFetchesAdvancesDecodesExecutes : Prop :=
  (∀ s : State, step s = stepWith defaultOpMap s) ∧
  ∀ (m : OpMap) (s : State),
    (s.halted = true → stepWith m s = .next s) ∧
    (s.halted = false → ∀ i : Instr, decodeWith m (memRead s.mem s.pc) = i →
      stepWith m s = exec i { s with ir := memRead s.mem s.pc, pc := s.pc + 1 })

/-- R83: a step taken while halted performs no work: the state is unchanged, there is no bus transaction, and it
reports not running. -/
def Obligations.HaltedStepDoesNoWork : Prop :=
  ∀ (m : OpMap) (s : State), s.halted = true →
    stepWith m s = .next s ∧ transactionsWith m s = [] ∧ hostStep s = (s, false)

/-- R90: a step is total: from every state, under every `OPMAP`, it yields exactly one next state; from a halted state
that is the state itself. -/
def Obligations.EveryStepCompletes : Prop :=
  ∀ (m : OpMap) (s : State), (∃! t, stepWith m s = .next t) ∧ (s.halted = true → stepWith m s = .next s)

/-- R90, R160: a run of any length from any state never faults and is never refused. -/
def Obligations.EveryRunCompletes : Prop :=
  ∀ (k : Nat) (s : State), Completes (Sys2Proof.core.run k s)

/-- R13: where `pc` is after a step, instruction by instruction: the jump target of JMP and of a taken JZ, the fetch
address plus one modulo 2^16 for every other, and unchanged when halted. -/
def Obligations.PcAfterEveryStep : Prop :=
  ∀ (m : OpMap) (s : State), ∃ t, stepWith m s = .next t ∧
    (s.halted = true → t.pc = s.pc) ∧
    (s.halted = false →
      (∀ rs, nextInstr m s = .jmp rs → t.pc = s.reg rs) ∧
      (∀ rs, nextInstr m s = .jz rs → s.flags.z = true → t.pc = s.reg rs) ∧
      (∀ rs, nextInstr m s = .jz rs → s.flags.z = false → t.pc.toNat = (s.pc.toNat + 1) % 65536) ∧
      ((∀ rs, nextInstr m s ≠ .jmp rs) → (∀ rs, nextInstr m s ≠ .jz rs) →
        t.pc.toNat = (s.pc.toNat + 1) % 65536))

/-- R16: the halted indicator is set only by executing HALT, a step never clears it, reset clears it, and while it is
set a step changes nothing. -/
def Obligations.HaltedChangesOnlyByHaltAndReset : Prop :=
  ∀ (m : OpMap) (s : State), ∃ t, stepWith m s = .next t ∧
    (s.halted = true → t = s ∧ transactionsWith m s = []) ∧
    (s.halted = false → (t.halted = true ↔ nextInstr m s = .halt)) ∧
    s.processorReset.halted = false

/-- R86: every flag-affecting instruction rewrites all three flags from the value it wrote and its carry; every other
instruction leaves them. -/
def Obligations.FlagRuleForEveryInstruction : Prop :=
  ∀ (i : Instr) (s : State), ∃ t, exec i s = .next t ∧
    (flagAffecting i = true → ∃ rd, destReg i = some rd ∧ FlagsAre t.flags (t.reg rd) (carryAfter i s = true) ∧
      ¬ (t.flags.z = true ∧ t.flags.n = true)) ∧
    (flagAffecting i = false → t.flags = s.flags)

/-- R89: the bounds of one step: only the destination register, only the cell STORE addresses and only the flags of a
flag-affecting instruction may change; `pc` takes the default advance but for JMP and JZ; at most one memory access
besides the fetch; no instruction writes both a register and memory, and none makes a data access and loads `pc`. -/
def Obligations.StepEffectsAreBounded : Prop :=
  ∀ (m : OpMap) (s : State), s.halted = false → ∃ t, stepWith m s = .next t ∧
    (∀ r, destReg (nextInstr m s) ≠ some r → t.reg r = s.reg r) ∧
    (∀ a, storeAddr (nextInstr m s) s ≠ some a → memRead t.mem a = memRead s.mem a) ∧
    (flagAffecting (nextInstr m s) = false → t.flags = s.flags) ∧
    t.ir = memRead s.mem s.pc ∧
    ((∀ rs, nextInstr m s ≠ .jmp rs ∧ nextInstr m s ≠ .jz rs) → t.pc = nextPc s.pc) ∧
    (transactionsWith m s).length ≤ 2 ∧
    ¬ ((destReg (nextInstr m s)).isSome = true ∧ (storeAddr (nextInstr m s) s).isSome = true) ∧
    ((dataTransaction (nextInstr m s) s).isSome = true → t.pc = nextPc s.pc)

/-- R46: the bus transactions of one step, in order, and that they account for the memory after it: a fetch read, then
the read of LOAD or the write of STORE; at most two, at most one write. -/
def Obligations.BusTransactionsOfEveryStep : Prop :=
  ∀ (m : OpMap) (s : State), ∃ t, stepWith m s = .next t ∧
    (s.halted = true → transactionsWith m s = []) ∧
    (s.halted = false →
      (∀ rd rs, nextInstr m s = .load rd rs → transactionsWith m s = [.read s.pc, .read (s.reg rs)]) ∧
      (∀ rd rs, nextInstr m s = .store rd rs →
        transactionsWith m s = [.read s.pc, .write (s.reg rs) (s.reg rd)]) ∧
      ((∀ rd rs, nextInstr m s ≠ .load rd rs) → (∀ rd rs, nextInstr m s ≠ .store rd rs) →
        transactionsWith m s = [.read s.pc])) ∧
    (transactionsWith m s).foldl Transaction.apply s.mem = t.mem ∧
    (transactionsWith m s).length ≤ 2 ∧ ((transactionsWith m s).filter Transaction.isWrite).length ≤ 1

/-- R47 (the spec's own sketch of the bus as wires, notes/assumptions/13.md): a running step first drives `addr = pc` with
`re = 1`; in each of its transactions exactly one of `re` and `we` is 1, and data is driven exactly when `we` is; between
transactions both are 0. A LOAD whose phase reads `x[rs]` is answered on `rdata` with that cell. -/
def Obligations.BusSignalsOfEveryStep : Prop :=
  ∀ (m : OpMap) (s : State), s.halted = false →
    (transactionsWith m s).head?.map Transaction.signals = some ⟨some s.pc, none, true, false⟩ ∧
    (∀ tr ∈ transactionsWith m s, (tr.signals.re != tr.signals.we) = true ∧
      tr.signals.wdata.isSome = tr.signals.we ∧ (tr.rdata s.mem).isSome = tr.signals.re) ∧
    (idleSignals.re = false ∧ idleSignals.we = false) ∧
    (∀ rd rs, nextInstr m s = .load rd rs →
      (transactionsWith m s).getLast?.bind (Transaction.rdata s.mem) = some (memRead s.mem (s.reg rs)))

/-- R46, R90: a step depends on memory only through the cells its transactions read: two machines that agree on the
processor state and on those cells have the same processor state and the same transactions. -/
def Obligations.StepReadsMemoryOnlyOnTheBus : Prop :=
  ∀ (m : OpMap) (s₁ s₂ : State), s₁.agreeProcessor s₂ →
    (∀ a, Transaction.read a ∈ transactionsWith m s₁ → memRead s₁.mem a = memRead s₂.mem a) →
    ∃ t₁ t₂, stepWith m s₁ = .next t₁ ∧ stepWith m s₂ = .next t₂ ∧ t₁.agreeProcessor t₂ ∧
      transactionsWith m s₁ = transactionsWith m s₂

/-- R11: an instruction's effects depend on the registers it reads and on no other: two states that agree on those, on
`pc`, Zero and memory get the same value in the destination register, the same `pc`, the same memory and, where the
instruction writes them, the same flags. -/
def Obligations.OnlySourceRegistersMatter : Prop :=
  ∀ (i : Instr) (s₁ s₂ : State), (∀ r ∈ sourceRegs i, s₁.reg r = s₂.reg r) → s₁.pc = s₂.pc →
    s₁.flags.z = s₂.flags.z → s₁.mem = s₂.mem →
    ∃ t₁ t₂, exec i s₁ = .next t₁ ∧ exec i s₂ = .next t₂ ∧
      (∀ rd, destReg i = some rd → t₁.reg rd = t₂.reg rd) ∧ t₁.pc = t₂.pc ∧ t₁.mem = t₂.mem ∧
      (flagAffecting i = true → t₁.flags = t₂.flags)

/-- R15, R17: Carry, Negative and `ir` influence nothing a program can act on, over a run of any length: two machines
that differ in them alone stay alike in registers, `pc`, Zero, `halted` and memory. -/
def Obligations.CarryNegativeAndIrAreNeverRead : Prop :=
  ∀ (k : Nat) (s₁ s₂ : State), s₁.agreeVisible s₂ →
    ∃ t₁ t₂, Sys2Proof.core.run k s₁ = .next t₁ ∧ Sys2Proof.core.run k s₂ = .next t₂ ∧ t₁.agreeVisible t₂

/-- The invariant every step keeps: the memory stays in canonical form (addresses rising and below 65536, no entry that
reads as an unlisted cell), and Zero and Negative exclude each other (R86). The canonical form is the model's
representation of R19: notes/assumptions/4.md. -/
def Obligations.StepKeepsInvariant : Prop :=
  ∀ s t : State, s.inv = true → Sys2Proof.Machine.step s = .next t → t.inv = true

/-- The invariant holds after reset. -/
def Obligations.ResetSatisfiesInvariant : Prop := State.reset.inv = true

/-- The invariant is kept by everything the host can do between steps: a bus write, a load of a program, a processor
reset under either reading of what it does to memory (R48, R151, R153). -/
def Obligations.HostActionsKeepInvariant : Prop :=
  ∀ s : State, s.inv = true →
    (∀ a v, (s.hostWrite a v).inv = true) ∧ (∀ origin ws, (s.hostLoad origin ws).inv = true) ∧
    (∀ clearsMem, (s.processorResetWith clearsMem).inv = true)

/-- R87, R88: the datapath driven by the decoder's control outputs and the ALU does what the instruction rules say: the
two descriptions give the same next state, in every field, from every state and for every word and `OPMAP`. -/
def Obligations.DatapathImplementsStep : Prop :=
  ∀ (m : OpMap) (s : State), stepWith m s = .next (datapathStep m s)

/-! ## Encoding -/

/-- R57, R60: decoding the canonical word of an instruction gives it back, for every instruction with every operand
value and under every well-formed `OPMAP`. -/
def Obligations.DecodeInvertsEncode : Prop :=
  ∀ m : OpMap, m.wellFormed = true → ∀ i : Instr, i.wellFormed = true → decodeWith m (encodeWith m i) = i

/-- R60, R64: encoding what a word decodes to gives the canonical word: the same used bits, the ignored bits 0. That an
unused field is encoded as 0 is the spec's decision D7: notes/assumptions/15.md. -/
def Obligations.EncodeInvertsDecodeOnUsedBits : Prop :=
  ∀ m : OpMap, m.wellFormed = true → ∀ w : Word, encodeWith m (decodeWith m w) = w &&& usedBitsOf m w

/-- R64: two words are the same instruction exactly when they agree on the bits the first one's instruction uses. -/
def Obligations.WordsDecodeAlikeIffUsedBitsAgree : Prop :=
  ∀ m : OpMap, m.wellFormed = true → ∀ w w' : Word,
    (decodeWith m w = decodeWith m w' ↔ w &&& usedBitsOf m w = w' &&& usedBitsOf m w)

/-- R65: an opcode value the map assigns to no instruction runs exactly as NOP; in a well-formed map, and so in this
hardware, there is no such value. -/
def Obligations.UnmappedOpcodeRunsAsNop : Prop :=
  (∀ (m : OpMap) (s : State), s.halted = false → m.mnemonicOf (fieldsOf (memRead s.mem s.pc)).op = none →
    stepWith m s = exec .nop s.fetch ∧ stepWith m s = .next s.fetch) ∧
  (∀ m : OpMap, m.wellFormed = true → ∀ c : Opcode, m.mnemonicOf c ≠ none) ∧
  (∀ c : Opcode, defaultOpMap.mnemonicOf c ≠ none)

/-- The raw forms in range are exactly the instructions: each mnemonic has the operands of its format (R58), a register
is 0 to 7 and an immediate 0 to 511. Which operands each mnemonic is written with (R75) and that a field its format
does not use is given as 0 (R60, R75) are the spec's decision D7: notes/assumptions/15.md. -/
def Obligations.InRangeOperandsAreExactlyInstructions : Prop :=
  ∀ r : RawInstr, r.wellFormed = true ↔ ∃ i : Instr, i.raw = r

/-- Some words of the spec's table V1 under the default `OPMAP`, which is the spec's decision D1
(notes/assumptions/2.md), and canonical words of R62: one or more of each family. -/
def Obligations.DefaultWordsDecode : Prop :=
  decode 0x0ABC#16 = .halt ∧ decode 0x1702#16 = .movi 3 258#9 ∧ decode 0x3040#16 = .load 0 1 ∧
  decode 0x40C0#16 = .store 0 3 ∧ decode 0x64C0#16 = .sub 2 3 ∧ decode 0x8A95#16 = .or 5 2 ∧
  decode 0xB3FF#16 = .shl 1 ∧ decode 0xDFFF#16 = .jmp 7 ∧ decode 0xE180#16 = .jz 6 ∧ decode 0xFFFF#16 = .nop ∧
  encode (.movi 7 511#9) = 0x1FFF#16 ∧ encode (.xor 6 6) = 0x9D80#16 ∧ encode (.shr 7) = 0xCE00#16

/-! ## Memory -/

/-- R41: after any sequence of bus writes, each cell reads as the last value written to it in order, or as before if
none was. The canonical form is the premise, an invariant of every step. -/
def Obligations.LastWriteToACellWins : Prop :=
  ∀ (ws : List (Word × Word)) (m : Memory) (a : Word), m.wf = true →
    memRead (ws.foldl (fun m w => memWrite m w.1 w.2) m) a = lastWritten a (memRead m a) ws

/-- Memories in canonical form that read alike at every address are equal data: the form loses nothing and adds
nothing. It is the model's representation: notes/assumptions/4.md. -/
def Obligations.CanonicalMemoriesThatReadAlikeAreEqual : Prop :=
  ∀ m₁ m₂ : Memory, m₁.wf = true → m₂.wf = true → (∀ a : Word, memRead m₁ a = memRead m₂ a) → m₁ = m₂

/-- R34 (the spec's decision D12): with fewer cells, a read outside gives 0x0000 and a write outside changes nothing; a
write inside is read back and touches no other cell. With the 65536 cells of this hardware no address is outside. -/
def Obligations.OutOfRangeAccessIsSilent : Prop :=
  (∀ (cells : Nat) (m : Memory) (a v : Word), cells ≤ a.toNat →
    busRead cells m a = 0x0000#16 ∧ busWrite cells m a v = m) ∧
  (∀ (cells : Nat) (m : Memory) (a b v : Word), m.wf = true → a.toNat < cells →
    busRead cells (busWrite cells m a v) a = v ∧
    (b ≠ a → busRead cells (busWrite cells m a v) b = busRead cells m b)) ∧
  (∀ a : Word, a.toNat < Config.memCells)

/-- R44: a STORE to the next instruction's cell is fetched as stored by the very next step, whose instruction is the
decoding of the stored value; a STORE to its own cell runs as the STORE that was fetched. -/
def Obligations.StoreIsSeenByTheNextFetch : Prop :=
  ∀ (m : OpMap) (s : State) (rd rs : Reg), s.halted = false → s.mem.wf = true → nextInstr m s = .store rd rs →
    ∃ t, stepWith m s = .next t ∧ t.ir = memRead s.mem s.pc ∧ memRead t.mem (s.reg rs) = s.reg rd ∧
      (s.reg rs = nextPc s.pc →
        memRead t.mem t.pc = s.reg rd ∧ stepWith m t = exec (decodeWith m (s.reg rd)) t.fetch)

/-- R41, R155: a LOAD directly after a STORE to the same cell sees the stored value, with its flags. -/
def Obligations.LoadSeesThePrecedingStore : Prop :=
  ∀ (rd rs rd' : Reg) (s : State), s.mem.wf = true → ∃ t u, exec (.store rd rs) s = .next t ∧
    exec (.load rd' rs) t = .next u ∧ u.reg rd' = s.reg rd ∧ FlagsAre u.flags (s.reg rd) False

/-! ## Arithmetic and shift identities -/

/-- R108: the identities of ADD and SUB over the integers, with the carry as a number; and ADD then SUB of the same
register restores the destination. -/
def Obligations.AddSubIdentities : Prop :=
  ∀ (rd rs : Reg) (s : State), ∃ t u, exec (.add rd rs) s = .next t ∧ exec (.sub rd rs) s = .next u ∧
    (t.reg rd).toNat + 65536 * t.flags.c.toNat = (s.reg rd).toNat + (s.reg rs).toNat ∧
    ((u.reg rd).toNat : Int) = ((s.reg rd).toNat : Int) - ((s.reg rs).toNat : Int) + 65536 * (1 - (u.flags.c.toNat : Int)) ∧
    (u.reg rd).toNat = ((s.reg rd).toNat + (~~~(s.reg rs)).toNat + 1) % 65536 ∧
    (u.flags.c = true ↔ (s.reg rd).toNat + (~~~(s.reg rs)).toNat + 1 ≥ 65536) ∧
    (rd ≠ rs → ∃ v, exec (.sub rd rs) t = .next v ∧ v.reg rd = s.reg rd)

/-- R117: SHL then SHR clears bit 15 and SHR then SHL clears bit 0; the lost bit is the Carry of the shift that lost it. -/
def Obligations.ShiftRoundTrips : Prop :=
  ∀ (rd : Reg) (s : State), ∃ l lr r rl, exec (.shl rd) s = .next l ∧ exec (.shr rd) l = .next lr ∧
    exec (.shr rd) s = .next r ∧ exec (.shl rd) r = .next rl ∧
    lr.reg rd = s.reg rd &&& 0x7FFF#16 ∧ rl.reg rd = s.reg rd &&& 0xFFFE#16 ∧
    (lr.reg rd = s.reg rd ↔ l.flags.c = false) ∧ (rl.reg rd = s.reg rd ↔ r.flags.c = false)

/-- R115: SHL gives the same state as ADD of the register to itself, flags included. -/
def Obligations.ShlEqualsAddToItself : Prop :=
  ∀ (rd : Reg) (s : State), (∃ t, exec (.shl rd) s = .next t) ∧ exec (.shl rd) s = exec (.add rd rd) s

/-! ## Reset, host interface and runs -/

/-- R22, R150: the state after construction. That `ir` is 0 is the spec's decision D2 (notes/assumptions/3.md). -/
def Obligations.ConstructionState : Prop :=
  construct = State.reset ∧ (∀ r, State.reset.reg r = 0x0000#16) ∧ State.reset.pc = 0x0000#16 ∧
  State.reset.flags = ⟨false, false, false⟩ ∧ State.reset.halted = false ∧ State.reset.ir = 0x0000#16 ∧
  ∀ a : Word, memRead State.reset.mem a = 0x0000#16

/-- R151: a processor reset restores the processor state from any state, Running or Halted. That it leaves memory as it
is is the spec's decision D3 (notes/assumptions/5.md), and that `ir` is 0 its decision D2 (notes/assumptions/3.md). -/
def Obligations.ProcessorResetRestoresAllButMemory : Prop :=
  ∀ s : State, (∀ r, s.processorReset.reg r = 0x0000#16) ∧ s.processorReset.pc = 0x0000#16 ∧
    s.processorReset.flags = ⟨false, false, false⟩ ∧ s.processorReset.halted = false ∧
    s.processorReset.ir = 0x0000#16 ∧ KeepsMemory s s.processorReset

/-- R153, R48: a program loaded by the host stands in consecutive cells from its load address; every other cell and the
processor state are as before. That a load past cell 0xFFFF goes on at cell 0 is the model's choice, after the address
arithmetic modulo 2^16 that R31 states for `pc` alone: notes/assumptions/16.md. -/
def Obligations.HostLoadPlacesTheProgram : Prop :=
  ∀ (s : State) (origin : Word) (ws : List Word), s.mem.wf = true → ws.length ≤ 65536 →
    (∀ k (hk : k < ws.length), (s.hostLoad origin ws).hostRead (origin + BitVec.ofNat 16 k) = ws[k]) ∧
    (∀ a : Word, (∀ k, k < ws.length → a ≠ origin + BitVec.ofNat 16 k) →
      (s.hostLoad origin ws).hostRead a = s.hostRead a) ∧
    (s.hostLoad origin ws).agreeProcessor s

/-- R158: what the host can read is the whole state: two states with memory in canonical form, the same snapshot, the same
status and the same bus reads are equal. A bus write by the host changes no part of the snapshot or the status. -/
def Obligations.HostObservesTheWholeState : Prop :=
  (∀ s t : State, s.mem.wf = true → t.mem.wf = true → s.snapshot = t.snapshot → s.running = t.running →
    (∀ a, s.hostRead a = t.hostRead a) → s = t) ∧
  (∀ (s : State) (a v : Word), (s.hostWrite a v).snapshot = s.snapshot ∧ (s.hostWrite a v).running = s.running)

/-- R84: the status `step()` reports: true unless the machine was halted or the executed instruction was HALT. -/
def Obligations.StepReportsRunning : Prop :=
  ∀ s : State, ∃ t, step s = .next t ∧ hostStep s = (t, !t.halted) ∧
    ((hostStep s).2 = true ↔ s.halted = false ∧ nextInstr defaultOpMap s ≠ .halt)

/-- R80, R160: Halted is terminal: however many steps are taken, the state stays. -/
def Obligations.HaltedIsTerminal : Prop :=
  ∀ (k : Nat) (s : State), s.halted = true → Sys2Proof.core.run k s = .next s

/-- R85, R160: `run()` ends at the first halted state of the run and reports the number of steps to it. That HALT is
counted and a halted machine reports 0 is the spec's decision D10 (notes/assumptions/12.md). -/
def Obligations.RunStopsAtTheFirstHaltedState : Prop :=
  ∀ (fuel : Nat) (s t : State) (n : Nat), hostRun fuel s = some (t, n) ↔
    n ≤ fuel ∧ Sys2Proof.core.run n s = .next t ∧ t.halted = true ∧
    ∀ k, k < n → ∃ u, Sys2Proof.core.run k s = .next u ∧ u.halted = false
end

