-- ==== Sys2Proof/Laws/Codec.lean ====
section
/-! SUPPORT. The laws of the codec: what field extraction reads from an encoded word, and what a well-formed `OPMAP`
answers. -/

namespace Sys2Proof

/-- Every instruction is well-formed: its operands are in range by type. -/
theorem Laws.instr_wellFormed (i : Instr) : i.wellFormed = true := by
  cases i <;> simp [Instr.wellFormed, Instr.raw, RawInstr.wellFormed, Mnemonic.format]
  rename_i rd imm
  exact decide_eq_true imm.isLt

theorem regOfBits_bitsOfReg (r : Reg) : regOfBits (bitsOfReg r) = r := rfl

theorem bitsOfReg_regOfBits (b : BitVec 3) : bitsOfReg (regOfBits b) = b := rfl

/-- The fields of a register-form word are the ones it was made from. -/
theorem fieldsOf_wordOfRegs (op : Opcode) (rd rs : Reg) :
    (fieldsOf (wordOfRegs op rd rs)).op = op ∧ (fieldsOf (wordOfRegs op rd rs)).rd = rd ∧
    (fieldsOf (wordOfRegs op rd rs)).rs = rs := by
  have key : ∀ d s : BitVec 3,
      ((op.setWidth 16 <<< 12) ||| (d.setWidth 16 <<< 9) ||| (s.setWidth 16 <<< 6) : Word).extractLsb' 12 4 = op ∧
      ((op.setWidth 16 <<< 12) ||| (d.setWidth 16 <<< 9) ||| (s.setWidth 16 <<< 6) : Word).extractLsb' 9 3 = d ∧
      ((op.setWidth 16 <<< 12) ||| (d.setWidth 16 <<< 9) ||| (s.setWidth 16 <<< 6) : Word).extractLsb' 6 3 = s := by
    intro d s
    refine ⟨?_, ?_, ?_⟩ <;> ext i hi <;> simp [← BitVec.getLsbD_eq_getElem] <;>
      (interval_cases i <;> simp)
  obtain ⟨h1, h2, h3⟩ := key (bitsOfReg rd) (bitsOfReg rs)
  exact ⟨h1, congrArg regOfBits h2, congrArg regOfBits h3⟩

/-- The fields of an immediate-form word are the ones it was made from. -/
theorem fieldsOf_wordOfImm (op : Opcode) (rd : Reg) (imm : Imm9) :
    (fieldsOf (wordOfImm op rd imm)).op = op ∧ (fieldsOf (wordOfImm op rd imm)).rd = rd ∧
    (fieldsOf (wordOfImm op rd imm)).imm9 = imm := by
  have key : ∀ d : BitVec 3,
      ((op.setWidth 16 <<< 12) ||| (d.setWidth 16 <<< 9) ||| imm.setWidth 16 : Word).extractLsb' 12 4 = op ∧
      ((op.setWidth 16 <<< 12) ||| (d.setWidth 16 <<< 9) ||| imm.setWidth 16 : Word).extractLsb' 9 3 = d ∧
      ((op.setWidth 16 <<< 12) ||| (d.setWidth 16 <<< 9) ||| imm.setWidth 16 : Word).extractLsb' 0 9 = imm := by
    intro d
    refine ⟨?_, ?_, ?_⟩ <;> ext i hi <;> simp [← BitVec.getLsbD_eq_getElem] <;>
      (interval_cases i <;> simp)
  obtain ⟨h1, h2, h3⟩ := key (bitsOfReg rd)
  exact ⟨h1, congrArg regOfBits h2, h3⟩

/-- Each mnemonic's number selects it in a well-formed map. -/
theorem OpMap.mnemonicOf_codeOf {m : OpMap} (h : m.wellFormed = true) (k : Mnemonic) :
    m.mnemonicOf (m.codeOf k) = some k := by
  simp only [OpMap.wellFormed, Bool.and_eq_true, List.all_eq_true, beq_iff_eq] at h
  exact h.1 k (by cases k <;> decide)

/-- A well-formed map selects each mnemonic by its number. -/
theorem OpMap.select_codeOf {m : OpMap} (h : m.wellFormed = true) (k : Mnemonic) : m.select (m.codeOf k) = k := by
  simp [OpMap.select, mnemonicOf_codeOf h k]

/-- Each number in a well-formed map is the number of the mnemonic it selects. -/
theorem OpMap.codeOf_select {m : OpMap} (h : m.wellFormed = true) (c : Opcode) : m.codeOf (m.select c) = c := by
  simp only [OpMap.wellFormed, Bool.and_eq_true, List.all_eq_true] at h
  have hc := h.2 c.toNat (by simpa using c.isLt)
  rw [BitVec.ofNat_toNat, BitVec.setWidth_eq] at hc
  cases hk : m.mnemonicOf c with
  | some k =>
    rw [hk] at hc
    simpa [OpMap.select, hk] using hc
  | none =>
    rw [hk] at hc
    cases hc

/-- The default numbering is a bijection. -/
theorem defaultOpMap_wellFormed : defaultOpMap.wellFormed = true := by decide

end Sys2Proof
end

