-- ==== Sys2Proof/Laws/State.lean ====
section
/-! SUPPORT. One lemma per field per update of the state, true by unfolding the update once, so that no later proof
unfolds a record update. -/

namespace Sys2Proof.Machine

variable (s : State)

@[simp] theorem setReg_x (rd : Reg) (v : Word) : (s.setReg rd v).x = s.x.set rd v := rfl
@[simp] theorem setReg_pc (rd : Reg) (v : Word) : (s.setReg rd v).pc = s.pc := rfl
@[simp] theorem setReg_flags (rd : Reg) (v : Word) : (s.setReg rd v).flags = s.flags := rfl
@[simp] theorem setReg_halted (rd : Reg) (v : Word) : (s.setReg rd v).halted = s.halted := rfl
@[simp] theorem setReg_ir (rd : Reg) (v : Word) : (s.setReg rd v).ir = s.ir := rfl
@[simp] theorem setReg_mem (rd : Reg) (v : Word) : (s.setReg rd v).mem = s.mem := rfl

@[simp] theorem setPc_x (target : Word) : (s.setPc target).x = s.x := rfl
@[simp] theorem setPc_pc (target : Word) : (s.setPc target).pc = target := rfl
@[simp] theorem setPc_flags (target : Word) : (s.setPc target).flags = s.flags := rfl
@[simp] theorem setPc_halted (target : Word) : (s.setPc target).halted = s.halted := rfl
@[simp] theorem setPc_ir (target : Word) : (s.setPc target).ir = s.ir := rfl
@[simp] theorem setPc_mem (target : Word) : (s.setPc target).mem = s.mem := rfl

@[simp] theorem setFlags_x (f : Flags) : (s.setFlags f).x = s.x := rfl
@[simp] theorem setFlags_pc (f : Flags) : (s.setFlags f).pc = s.pc := rfl
@[simp] theorem setFlags_flags (f : Flags) : (s.setFlags f).flags = f := rfl
@[simp] theorem setFlags_halted (f : Flags) : (s.setFlags f).halted = s.halted := rfl
@[simp] theorem setFlags_ir (f : Flags) : (s.setFlags f).ir = s.ir := rfl
@[simp] theorem setFlags_mem (f : Flags) : (s.setFlags f).mem = s.mem := rfl

@[simp] theorem setHalted_x : s.setHalted.x = s.x := rfl
@[simp] theorem setHalted_pc : s.setHalted.pc = s.pc := rfl
@[simp] theorem setHalted_flags : s.setHalted.flags = s.flags := rfl
@[simp] theorem setHalted_halted : s.setHalted.halted = true := rfl
@[simp] theorem setHalted_ir : s.setHalted.ir = s.ir := rfl
@[simp] theorem setHalted_mem : s.setHalted.mem = s.mem := rfl

@[simp] theorem setIr_x (w : Word) : (s.setIr w).x = s.x := rfl
@[simp] theorem setIr_pc (w : Word) : (s.setIr w).pc = s.pc := rfl
@[simp] theorem setIr_flags (w : Word) : (s.setIr w).flags = s.flags := rfl
@[simp] theorem setIr_halted (w : Word) : (s.setIr w).halted = s.halted := rfl
@[simp] theorem setIr_ir (w : Word) : (s.setIr w).ir = w := rfl
@[simp] theorem setIr_mem (w : Word) : (s.setIr w).mem = s.mem := rfl

@[simp] theorem setMem_x (m : Memory) : (s.setMem m).x = s.x := rfl
@[simp] theorem setMem_pc (m : Memory) : (s.setMem m).pc = s.pc := rfl
@[simp] theorem setMem_flags (m : Memory) : (s.setMem m).flags = s.flags := rfl
@[simp] theorem setMem_halted (m : Memory) : (s.setMem m).halted = s.halted := rfl
@[simp] theorem setMem_ir (m : Memory) : (s.setMem m).ir = s.ir := rfl
@[simp] theorem setMem_mem (m : Memory) : (s.setMem m).mem = m := rfl

@[simp] theorem fetch_x : s.fetch.x = s.x := rfl
@[simp] theorem fetch_pc : s.fetch.pc = nextPc s.pc := rfl
@[simp] theorem fetch_flags : s.fetch.flags = s.flags := rfl
@[simp] theorem fetch_halted : s.fetch.halted = s.halted := rfl
@[simp] theorem fetch_ir : s.fetch.ir = memRead s.mem s.pc := rfl
@[simp] theorem fetch_mem : s.fetch.mem = s.mem := rfl

@[simp] theorem writeResult_x (rd : Reg) (r : Word) (c : Bool) : (s.writeResult rd r c).x = s.x.set rd r := rfl
@[simp] theorem writeResult_pc (rd : Reg) (r : Word) (c : Bool) : (s.writeResult rd r c).pc = s.pc := rfl
@[simp] theorem writeResult_flags (rd : Reg) (r : Word) (c : Bool) : (s.writeResult rd r c).flags = flagsZN r c := rfl
@[simp] theorem writeResult_halted (rd : Reg) (r : Word) (c : Bool) : (s.writeResult rd r c).halted = s.halted := rfl
@[simp] theorem writeResult_ir (rd : Reg) (r : Word) (c : Bool) : (s.writeResult rd r c).ir = s.ir := rfl
@[simp] theorem writeResult_mem (rd : Reg) (r : Word) (c : Bool) : (s.writeResult rd r c).mem = s.mem := rfl

@[simp] theorem storeOperand_x (rs : Reg) (v : Word) : (s.storeOperand rs v).x = s.x := rfl
@[simp] theorem storeOperand_pc (rs : Reg) (v : Word) : (s.storeOperand rs v).pc = s.pc := rfl
@[simp] theorem storeOperand_flags (rs : Reg) (v : Word) : (s.storeOperand rs v).flags = s.flags := rfl
@[simp] theorem storeOperand_halted (rs : Reg) (v : Word) : (s.storeOperand rs v).halted = s.halted := rfl
@[simp] theorem storeOperand_ir (rs : Reg) (v : Word) : (s.storeOperand rs v).ir = s.ir := rfl
@[simp] theorem storeOperand_mem (rs : Reg) (v : Word) : (s.storeOperand rs v).mem = memWrite s.mem (s.reg rs) v := rfl

@[simp] theorem withFetchWord_x (nbits w : Nat) : (s.withFetchWord nbits w).x = s.x := rfl
@[simp] theorem withFetchWord_pc (nbits w : Nat) : (s.withFetchWord nbits w).pc = s.pc := rfl
@[simp] theorem withFetchWord_flags (nbits w : Nat) : (s.withFetchWord nbits w).flags = s.flags := rfl
@[simp] theorem withFetchWord_halted (nbits w : Nat) : (s.withFetchWord nbits w).halted = false := rfl
@[simp] theorem withFetchWord_ir (nbits w : Nat) : (s.withFetchWord nbits w).ir = s.ir := rfl
@[simp] theorem withFetchWord_mem (nbits w : Nat) : (s.withFetchWord nbits w).mem = memWrite s.mem s.pc (tableCell nbits w) := rfl

/-- A register read after a register write: the written value in that register, the old value in every other. -/
@[simp] theorem setReg_reg (rd r : Reg) (v : Word) : (s.setReg rd v).reg r = if r = rd then v else s.reg r := by
  by_cases h : r = rd
  · subst h; simp [State.reg]
  · have : ¬ rd.val = r.val := fun e => h (Fin.ext e.symm)
    simp [State.reg, h, this]

@[simp] theorem setPc_reg (target : Word) (r : Reg) : (s.setPc target).reg r = s.reg r := rfl
@[simp] theorem setFlags_reg (f : Flags) (r : Reg) : (s.setFlags f).reg r = s.reg r := rfl
@[simp] theorem setHalted_reg (r : Reg) : s.setHalted.reg r = s.reg r := rfl
@[simp] theorem setIr_reg (w : Word) (r : Reg) : (s.setIr w).reg r = s.reg r := rfl
@[simp] theorem setMem_reg (m : Memory) (r : Reg) : (s.setMem m).reg r = s.reg r := rfl
@[simp] theorem fetch_reg (r : Reg) : s.fetch.reg r = s.reg r := rfl
@[simp] theorem storeOperand_reg (rs : Reg) (v : Word) (r : Reg) : (s.storeOperand rs v).reg r = s.reg r := rfl
@[simp] theorem withFetchWord_reg (nbits w : Nat) (r : Reg) : (s.withFetchWord nbits w).reg r = s.reg r := rfl

/-- A register read after a result is written. -/
@[simp] theorem writeResult_reg (rd r : Reg) (v : Word) (c : Bool) :
    (s.writeResult rd v c).reg r = if r = rd then v else s.reg r := setReg_reg s rd r v

/-- Two states with the same registers, field by field, have the same register file. -/
theorem x_ext (s t : State) (h : ∀ r : Reg, s.reg r = t.reg r) : s.x = t.x := by
  apply Vector.ext
  intro i hi
  exact h ⟨i, hi⟩

/-- States are equal when all their fields are, the registers read one by one. -/
theorem state_ext (s t : State) (hx : ∀ r : Reg, s.reg r = t.reg r) (hpc : s.pc = t.pc) (hf : s.flags = t.flags)
    (hh : s.halted = t.halted) (hi : s.ir = t.ir) (hm : s.mem = t.mem) : s = t := by
  have := x_ext s t hx
  cases s; cases t; simp_all

/-- Every register reads 0 at reset. -/
@[simp] theorem reset_reg (r : Reg) : State.reset.reg r = 0x0000#16 := by
  simp [State.reg, State.reset]

end Sys2Proof.Machine
end

