-- ==== Sys2Proof/Laws/Exec.lean ====
section
/-! SUPPORT. One equation per instruction, the only place its meaning is unfolded; what the shared end of a
flag-affecting instruction does; and the two cases of a step. -/

namespace Sys2Proof.Machine

variable (s : State)

theorem exec_halt :
    exec .halt s = .next (s.setHalted) := rfl

theorem exec_movi (rd : Reg) (imm : Imm9) :
    exec (.movi rd imm) s = .next (s.writeResult rd (immValue imm) carryCleared) := rfl

theorem exec_mov (rd rs : Reg) :
    exec (.mov rd rs) s = .next (s.writeResult rd (s.reg rs) carryCleared) := rfl

theorem exec_load (rd rs : Reg) :
    exec (.load rd rs) s = .next (s.writeResult rd (memRead s.mem (s.reg rs)) carryCleared) := rfl

theorem exec_store (rd rs : Reg) :
    exec (.store rd rs) s = .next (s.setMem (memWrite s.mem (s.reg rs) (s.reg rd))) := rfl

theorem exec_add (rd rs : Reg) :
    exec (.add rd rs) s = .next (s.writeResult rd (BitVec.ofNat 16 ((s.reg rd).toNat + (s.reg rs).toNat)) (addCarry (s.reg rd) (s.reg rs))) := rfl

theorem exec_sub (rd rs : Reg) :
    exec (.sub rd rs) s = .next (s.writeResult rd (BitVec.ofInt 16 ((s.reg rd).toNat - (s.reg rs).toNat)) (subNoBorrow (s.reg rd) (s.reg rs))) := rfl

theorem exec_and (rd rs : Reg) :
    exec (.and rd rs) s = .next (s.writeResult rd (s.reg rd &&& s.reg rs) carryCleared) := rfl

theorem exec_or (rd rs : Reg) :
    exec (.or rd rs) s = .next (s.writeResult rd (s.reg rd ||| s.reg rs) carryCleared) := rfl

theorem exec_xor (rd rs : Reg) :
    exec (.xor rd rs) s = .next (s.writeResult rd (s.reg rd ^^^ s.reg rs) carryCleared) := rfl

theorem exec_not (rd rs : Reg) :
    exec (.not rd rs) s = .next (s.writeResult rd (~~~(s.reg rs)) carryCleared) := rfl

theorem exec_shl (rd : Reg) :
    exec (.shl rd) s = .next (s.writeResult rd (s.reg rd <<< 1) (shlCarry (s.reg rd))) := rfl

theorem exec_shr (rd : Reg) :
    exec (.shr rd) s = .next (s.writeResult rd (s.reg rd >>> 1) (shrCarry (s.reg rd))) := rfl

theorem exec_jmp (rs : Reg) :
    exec (.jmp rs) s = .next (s.setPc (s.reg rs)) := rfl

theorem exec_jz (rs : Reg) :
    exec (.jz rs) s = .next (if s.flags.z then s.setPc (s.reg rs) else s) := rfl

theorem exec_nop :
    exec .nop s = .next (s) := rfl

/-- A result write sets Zero and Negative from the result, and they exclude each other (R86). -/
theorem flagsZN_exclusive (r : Word) (c : Bool) : ((flagsZN r c).z && (flagsZN r c).n) = false := by
  by_cases h : r = 0x0000#16
  · subst h; rfl
  · have : (r == 0x0000#16) = false := by simpa using h
    simp [flagsZN, this]

/-- A step of a halted machine is the identity (R83). -/
theorem stepWith_halted (m : OpMap) {s : State} (h : s.halted = true) : stepWith m s = .next s := by
  simp [stepWith, h]

/-- A step of a running machine executes the fetched word's instruction in the fetched state (R81). -/
theorem stepWith_running (m : OpMap) {s : State} (h : s.halted = false) :
    stepWith m s = exec (decodeWith m (memRead s.mem s.pc)) s.fetch := by
  simp [stepWith, h]

/-- A table word placed for the next step is the instruction that step runs. -/
theorem step_withFetchWord (s : State) (nbits w : Nat)
    (h : (s.withFetchWord nbits w).fetch.ir = tableCell nbits w) :
    step (s.withFetchWord nbits w) = exec (decode (tableCell nbits w)) (s.withFetchWord nbits w).fetch := by
  rw [step, stepWith_running _ (withFetchWord_halted ..)]
  exact congrArg (fun v => exec (decode v) _) h

end Sys2Proof.Machine
end

