-- ==== Sys2Proof/Laws/Memory.lean ====
section
/-! SUPPORT. The laws of memory: what a read gives after a write, and that every memory operation keeps the canonical
form. -/

namespace Sys2Proof.Machine

/-- Cells that all lie at or above `lo` hold nothing listed below it. -/
theorem cellAt_below {cells : List Cell} {lo a : Nat} (h : cellsWf lo cells = true) (ha : a < lo) :
    cellAt cells a = unlistedCell := by
  induction cells generalizing lo with
  | nil => rfl
  | cons c rest ih =>
    obtain ⟨k, v⟩ := c
    simp only [cellsWf, Bool.and_eq_true, decide_eq_true_eq] at h
    have hk : k ≠ a := by omega
    simpa [cellAt, hk] using ih h.2 (by omega)

/-- A smaller lower bound does as well. -/
theorem cellsWf_mono {cells : List Cell} {lo lo' : Nat} (h : cellsWf lo cells = true) (hle : lo' ≤ lo) :
    cellsWf lo' cells = true := by
  cases cells with
  | nil => rfl
  | cons c rest =>
    obtain ⟨k, v⟩ := c
    simp only [cellsWf, Bool.and_eq_true, decide_eq_true_eq] at h ⊢
    exact ⟨⟨⟨by omega, h.1.1.2⟩, h.1.2⟩, h.2⟩

/-- Writing a cell keeps the canonical form. -/
theorem cellsWf_putCell {cells : List Cell} {lo a : Nat} (v : Word) (h : cellsWf lo cells = true) (hlo : lo ≤ a)
    (ha : a < Config.memCells) : cellsWf lo (putCell cells a v) = true := by
  induction cells generalizing lo with
  | nil =>
    simp only [putCell]
    split
    · rfl
    · rename_i hv; simp [cellsWf, hlo, ha, hv]
  | cons c rest ih =>
    obtain ⟨k, w⟩ := c
    have h' := h
    simp only [cellsWf, Bool.and_eq_true, decide_eq_true_eq] at h'
    obtain ⟨⟨⟨h1, h2⟩, h3⟩, h4⟩ := h'
    simp only [putCell]
    split
    · rename_i hak
      split
      · exact h
      · rename_i hv
        simp only [cellsWf, Bool.and_eq_true, decide_eq_true_eq]
        exact ⟨⟨⟨hlo, ha⟩, hv⟩, ⟨⟨by omega, h2⟩, h3⟩, h4⟩
    · split
      · rename_i hak
        subst hak
        split
        · exact cellsWf_mono h4 (by omega)
        · rename_i hv
          simp only [cellsWf, Bool.and_eq_true, decide_eq_true_eq]
          exact ⟨⟨⟨h1, h2⟩, hv⟩, h4⟩
      · simp only [cellsWf, Bool.and_eq_true, decide_eq_true_eq]
        exact ⟨⟨⟨h1, h2⟩, h3⟩, ih h4 (by omega)⟩

/-- Writing one cell leaves every other cell alone, whatever the form of the list. -/
theorem cellAt_putCell_ne (cells : List Cell) {a b : Nat} (v : Word) (h : b ≠ a) :
    cellAt (putCell cells a v) b = cellAt cells b := by
  induction cells with
  | nil =>
    simp only [putCell]
    split
    · rfl
    · simp [cellAt, Ne.symm h]
  | cons c rest ih =>
    obtain ⟨k, w⟩ := c
    simp only [putCell]
    split
    · split
      · rfl
      · simp [cellAt, Ne.symm h]
    · split
      · rename_i hak
        subst hak
        split <;> simp [cellAt, Ne.symm h]
      · simp [cellAt, ih]

/-- In a canonical memory, a cell that was written reads as written. -/
theorem cellAt_putCell_same {cells : List Cell} {lo a : Nat} (v : Word) (h : cellsWf lo cells = true) :
    cellAt (putCell cells a v) a = v := by
  induction cells generalizing lo with
  | nil =>
    simp only [putCell]
    split
    · rename_i hv; simp [cellAt, hv]
    · simp [cellAt]
  | cons c rest ih =>
    obtain ⟨k, w⟩ := c
    simp only [cellsWf, Bool.and_eq_true, decide_eq_true_eq] at h
    simp only [putCell]
    split
    · rename_i hak
      split
      · rename_i hv
        have hk : k ≠ a := by omega
        simp only [cellAt, hk, if_false, hv]
        exact cellAt_below h.2 (by omega)
      · simp [cellAt]
    · split
      · rename_i hak
        subst hak
        split
        · rename_i hv; rw [hv]; exact cellAt_below h.2 (by omega)
        · simp [cellAt]
      · rename_i h1 h2
        simp only [cellAt, Ne.symm h2, if_false]
        exact ih h.2

/-- A bus read is a read of the listed cells: no address is out of range (R31). -/
theorem memRead_eq (m : Memory) (a : Word) : memRead m a = cellAt m.cells a.toNat := by
  have : a.toNat < Config.memCells := a.isLt
  simp [memRead, busRead, this]

/-- A bus write is a write of the listed cells: no address is out of range (R31). -/
theorem memWrite_eq (m : Memory) (a v : Word) : memWrite m a v = ⟨putCell m.cells a.toNat v⟩ := by
  have : a.toNat < Config.memCells := a.isLt
  simp [memWrite, busWrite, this]

/-- All a bus read can do: the empty memory reads 0x0000 everywhere. -/
@[simp] theorem memRead_empty (a : Word) : memRead ⟨[]⟩ a = 0x0000#16 := by
  simp [memRead_eq, cellAt, unlistedCell]

/-- All a bus write can do to another cell: nothing. -/
theorem memRead_memWrite_ne (m : Memory) {a b : Word} (v : Word) (h : b ≠ a) :
    memRead (memWrite m a v) b = memRead m b := by
  rw [memRead_eq, memRead_eq, memWrite_eq]
  exact cellAt_putCell_ne _ _ (fun e => h (BitVec.eq_of_toNat_eq e))

/-- All a bus write can do to its cell: it reads as written. -/
theorem memRead_memWrite_same {m : Memory} (a v : Word) (h : m.wf = true) :
    memRead (memWrite m a v) a = v := by
  rw [memRead_eq, memWrite_eq]
  exact cellAt_putCell_same v h

/-- A bus write keeps the canonical form, whatever the memory size. -/
theorem wf_busWrite {m : Memory} {cells : Nat} (a v : Word) (h : m.wf = true) :
    (busWrite cells m a v).wf = true := by
  unfold busWrite
  split
  · exact cellsWf_putCell v h (Nat.zero_le _) a.isLt
  · exact h

/-- A bus write keeps the canonical form. -/
theorem wf_memWrite {m : Memory} (a v : Word) (h : m.wf = true) : (memWrite m a v).wf = true :=
  wf_busWrite a v h

/-- The memory at reset is in canonical form. -/
theorem reset_mem_wf : State.reset.mem.wf = true := rfl

/-- STORE's operand write keeps the canonical form. -/
theorem storeOperand_wf {s : State} (rs : Reg) (v : Word) (h : s.mem.wf = true) :
    (s.storeOperand rs v).mem.wf = true := wf_memWrite _ _ h

/-- Placing a word where the next step fetches keeps the canonical form. -/
theorem withFetchWord_wf {s : State} (nbits w : Nat) (h : s.mem.wf = true) :
    (s.withFetchWord nbits w).mem.wf = true := wf_memWrite _ _ h

/-- The word placed by `withFetchWord` is the word the next step fetches. -/
theorem withFetchWord_fetch {s : State} (nbits w : Nat) (h : s.mem.wf = true) :
    (s.withFetchWord nbits w).fetch.ir = tableCell nbits w := by
  simpa using memRead_memWrite_same s.pc (tableCell nbits w) h

end Sys2Proof.Machine
end

