-- ==== Sys2Proof/Laws/PerInstr.lean ====
section
/-! SUPPORT. The family `CanonicalOpcode`: the canonical word of an instruction carries its mnemonic's number in the
opcode field, under every `OPMAP` (spec/30_encoding.md R60, R61). One lemma per constructor of `Instr`. -/

namespace Sys2Proof

/-- The canonical word of `i` has the number of its mnemonic in bits 15 to 12 (R60). -/
def Laws.CanonicalOpcode.Statement (i : Instr) : Prop :=
  ∀ m : OpMap, (fieldsOf (encodeWith m i)).op = m.codeOf i.mnemonic

theorem Laws.CanonicalOpcode.halt : Laws.CanonicalOpcode.Statement .halt :=
  fun _ => (fieldsOf_wordOfRegs _ _ _).1

theorem Laws.CanonicalOpcode.movi (rd : Reg) (imm : Imm9) : Laws.CanonicalOpcode.Statement (.movi rd imm) :=
  fun _ => (fieldsOf_wordOfImm _ _ _).1

theorem Laws.CanonicalOpcode.mov (rd rs : Reg) : Laws.CanonicalOpcode.Statement (.mov rd rs) :=
  fun _ => (fieldsOf_wordOfRegs _ _ _).1

theorem Laws.CanonicalOpcode.load (rd rs : Reg) : Laws.CanonicalOpcode.Statement (.load rd rs) :=
  fun _ => (fieldsOf_wordOfRegs _ _ _).1

theorem Laws.CanonicalOpcode.store (rd rs : Reg) : Laws.CanonicalOpcode.Statement (.store rd rs) :=
  fun _ => (fieldsOf_wordOfRegs _ _ _).1

theorem Laws.CanonicalOpcode.add (rd rs : Reg) : Laws.CanonicalOpcode.Statement (.add rd rs) :=
  fun _ => (fieldsOf_wordOfRegs _ _ _).1

theorem Laws.CanonicalOpcode.sub (rd rs : Reg) : Laws.CanonicalOpcode.Statement (.sub rd rs) :=
  fun _ => (fieldsOf_wordOfRegs _ _ _).1

theorem Laws.CanonicalOpcode.and (rd rs : Reg) : Laws.CanonicalOpcode.Statement (.and rd rs) :=
  fun _ => (fieldsOf_wordOfRegs _ _ _).1

theorem Laws.CanonicalOpcode.or (rd rs : Reg) : Laws.CanonicalOpcode.Statement (.or rd rs) :=
  fun _ => (fieldsOf_wordOfRegs _ _ _).1

theorem Laws.CanonicalOpcode.xor (rd rs : Reg) : Laws.CanonicalOpcode.Statement (.xor rd rs) :=
  fun _ => (fieldsOf_wordOfRegs _ _ _).1

theorem Laws.CanonicalOpcode.not (rd rs : Reg) : Laws.CanonicalOpcode.Statement (.not rd rs) :=
  fun _ => (fieldsOf_wordOfRegs _ _ _).1

theorem Laws.CanonicalOpcode.shl (rd : Reg) : Laws.CanonicalOpcode.Statement (.shl rd) :=
  fun _ => (fieldsOf_wordOfRegs _ _ _).1

theorem Laws.CanonicalOpcode.shr (rd : Reg) : Laws.CanonicalOpcode.Statement (.shr rd) :=
  fun _ => (fieldsOf_wordOfRegs _ _ _).1

theorem Laws.CanonicalOpcode.jmp (rs : Reg) : Laws.CanonicalOpcode.Statement (.jmp rs) :=
  fun _ => (fieldsOf_wordOfRegs _ _ _).1

theorem Laws.CanonicalOpcode.jz (rs : Reg) : Laws.CanonicalOpcode.Statement (.jz rs) :=
  fun _ => (fieldsOf_wordOfRegs _ _ _).1

theorem Laws.CanonicalOpcode.nop : Laws.CanonicalOpcode.Statement .nop :=
  fun _ => (fieldsOf_wordOfRegs _ _ _).1

end Sys2Proof
end

