-- ==== Sys2Proof/Laws/Results.lean ====
section
/-! SUPPORT. What each shared operation does, in the terms the statements use: the end of a flag-affecting instruction,
the dispatch on a mnemonic's number, the arithmetic of the two descriptions of the ALU, one more step of a run. -/

namespace Sys2Proof.Machine

/-- `FlagsZN` gives the flags of its result and carry (R86). -/
theorem flagsZN_flagsAre (r : Word) (c : Bool) (p : Prop) (h : c = true ↔ p) : FlagsAre (flagsZN r c) r p := by
  refine ⟨?_, h, ?_⟩
  · simp [flagsZN, BitVec.toNat_eq]
  · simp only [flagsZN]
    rw [← BitVec.msb_eq_getLsbD_last r, BitVec.msb_eq_decide]
    simp

/-- A result write changes its register and the flags, and nothing else (R86, R89). -/
theorem writeResult_frame (s : State) (rd : Reg) (r : Word) (c : Bool) :
    KeepsAllButResult rd s (s.writeResult rd r c) := by
  refine ⟨fun r' h => ?_, rfl, rfl, rfl, fun _ => rfl⟩
  simp [h]

/-- The instruction `instrOf` builds for a mnemonic is selected by that mnemonic's number (R61). -/
theorem selectedBy_instrOf {k : Mnemonic} {f : Fields → Instr} (h : ∀ g, instrOf k g = f g) : SelectedBy k f := by
  intro m hm w hw
  rw [decodeWith, hw, OpMap.select_codeOf hm, h]

/-- JZ as one write of `pc`: the target when Zero is set, the value it has when not (R121). -/
theorem exec_jz_setPc (s : State) (rs : Reg) :
    exec (.jz rs) s = .next (s.setPc (if s.flags.z then s.reg rs else s.pc)) := by
  rw [exec_jz]
  cases h : s.flags.z
  · simp; rfl
  · simp

/-- The next cell's address over the natural numbers: it wraps at 65536 (R12). -/
theorem nextPc_toNat (p : Word) : (nextPc p).toNat = (p.toNat + 1) % 65536 := by
  simp [nextPc, BitVec.toNat_add]

/-- The low 16 bits of the 17-bit sum are the reduced integer sum (R87, R105). -/
theorem sum17_low (a b : Word) : (sum17 a b).setWidth 16 = BitVec.ofNat 16 (a.toNat + b.toNat) := by
  apply BitVec.eq_of_toNat_eq
  simp [sum17, BitVec.toNat_add]

/-- Bit 16 of the 17-bit sum is the carry of ADD (R87, R105). -/
theorem sum17_carry (a b : Word) : (sum17 a b).getLsbD 16 = addCarry a b := by
  have h : (sum17 a b).getLsbD 16 = (sum17 a b).msb := by simp [BitVec.msb_eq_getLsbD_last]
  rw [h, BitVec.msb_eq_decide]
  simp only [sum17, addCarry, BitVec.toNat_add, BitVec.toNat_setWidth]
  have := a.isLt
  have := b.isLt
  apply decide_eq_decide.2
  omega

/-- The integer difference, narrowed, is the wrapping difference (R87, R106). -/
theorem ofInt_toNat_sub (a b : Word) : BitVec.ofInt 16 (a.toNat - b.toNat) = a - b := by
  apply BitVec.eq_of_toNat_eq
  simp only [BitVec.toNat_ofInt, BitVec.toNat_sub]
  have := a.isLt
  have := b.isLt
  omega

/-- The unsigned comparison is the no-borrow condition (R87, R106). -/
theorem ule_eq_subNoBorrow (a b : Word) : b.ule a = subNoBorrow a b := by
  simp [BitVec.ule, subNoBorrow]

/-- One more step of a run. -/
theorem core_run_succ {s t : State} (k : Nat) (h : step s = .next t) :
    Sys2Proof.core.run (k + 1) s = Sys2Proof.core.run k t := by
  have h' : Sys2Proof.core.step s = .next t := h
  simp only [Host.Core.run.eq_def Sys2Proof.core (k + 1) s, h']

end Sys2Proof.Machine
end

