-- ==== Sys2Proof/Tests/Slice0.lean ====
section
/-! SUPPORT. Tests. Expected values are the spec's own: the words and tables V1 to V12 of spec/95_test_vectors.md, the
canonical encodings of spec/30_encoding.md R62 and the examples of the instruction rules. Each witness shows states and
operands that meet the hypotheses of the statement it is named after, clause by clause. -/

namespace Sys2Proof.Tests

open Sys2Proof.Machine

/-! ## WellFormed: an ill-formed term for each check, refused -/

theorem test_rr_rd_8_refused : (⟨.MOV, 8, 0, 0⟩ : RawInstr).wellFormed = false := by decide
theorem test_rr_rs_8_refused : (⟨.ADD, 0, 8, 0⟩ : RawInstr).wellFormed = false := by decide
theorem test_rr_imm_refused : (⟨.NOT, 0, 0, 1⟩ : RawInstr).wellFormed = false := by decide
theorem test_rd_rd_8_refused : (⟨.SHL, 8, 0, 0⟩ : RawInstr).wellFormed = false := by decide
theorem test_rd_rs_refused : (⟨.SHR, 0, 1, 0⟩ : RawInstr).wellFormed = false := by decide
theorem test_rs_rs_8_refused : (⟨.JMP, 0, 8, 0⟩ : RawInstr).wellFormed = false := by decide
theorem test_rs_rd_refused : (⟨.JZ, 1, 0, 0⟩ : RawInstr).wellFormed = false := by decide
theorem test_i_imm_512_refused : (⟨.MOVI, 7, 0, 512⟩ : RawInstr).wellFormed = false := by decide
theorem test_i_rd_8_refused : (⟨.MOVI, 8, 0, 0⟩ : RawInstr).wellFormed = false := by decide
theorem test_n_operand_refused : (⟨.HALT, 1, 0, 0⟩ : RawInstr).wellFormed = false := by decide
theorem test_boundary_operands_accepted : (⟨.MOVI, 7, 0, 511⟩ : RawInstr).wellFormed = true := by decide

/-- Two mnemonics with one number: no bijection. -/
def clashingMap : OpMap where
  codeOf := fun k => if k = .NOP then 0x0#4 else defaultCodeOf k
  mnemonicOf := defaultMnemonicOf

/-- A map that assigns no instruction to the value 0xF (R65). -/
def partialMap : OpMap where
  codeOf := defaultCodeOf
  mnemonicOf := fun c => if c = 0xF#4 then none else defaultMnemonicOf c

theorem test_clashing_map_refused : clashingMap.wellFormed = false := by decide
theorem test_partial_map_refused : partialMap.wellFormed = false := by decide

/-! ## Decoding: a word of each instruction, written out from R62 and V1 -/

theorem test_decode_halt : decode 0b0000_101_010_111100#16 = .halt := by decide
theorem test_decode_movi : decode 0b0001_011_100_000010#16 = .movi 3 258#9 := by decide
theorem test_decode_mov : decode 0b0010_001_010_000000#16 = .mov 1 2 := by decide
theorem test_decode_load : decode 0b0011_000_001_000000#16 = .load 0 1 := by decide
theorem test_decode_store : decode 0b0100_000_011_000000#16 = .store 0 3 := by decide
theorem test_decode_add : decode 0b0101_000_100_000000#16 = .add 0 4 := by decide
theorem test_decode_sub : decode 0b0110_010_011_000000#16 = .sub 2 3 := by decide
theorem test_decode_and : decode 0b0111_001_010_000000#16 = .and 1 2 := by decide
theorem test_decode_or : decode 0b1000_101_010_010101#16 = .or 5 2 := by decide
theorem test_decode_xor : decode 0b1001_110_110_000000#16 = .xor 6 6 := by decide
theorem test_decode_not : decode 0b1010_001_010_000000#16 = .not 1 2 := by decide
theorem test_decode_shl : decode 0b1011_001_111_111111#16 = .shl 1 := by decide
theorem test_decode_shr : decode 0b1100_001_000_000000#16 = .shr 1 := by decide
theorem test_decode_jmp : decode 0b1101_111_111_111111#16 = .jmp 7 := by decide
theorem test_decode_jz : decode 0b1110_000_110_000000#16 = .jz 6 := by decide
theorem test_decode_nop : decode 0b1111_111_111_111111#16 = .nop := by decide

/-- Encoder instances of V1. -/
theorem test_encode_words : encode (.mov 5 5) = 0x2B40#16 ∧ encode (.movi 7 511#9) = 0x1FFF#16 ∧
    encode (.shr 7) = 0xCE00#16 ∧ encode (.jz 1) = 0xE040#16 ∧ encode (.store 4 4) = 0x4900#16 := by decide

theorem test_table_word : decodeTableWord 16 0xA280 = some (.not 1 2) := by decide

/-! ## One step on a small state -/

/-- The state after reset with a word in the cell at `pc`. -/
def fetching (pc w : Word) : State := { State.reset with pc := pc, mem := memWrite State.reset.mem pc w }

/-- The same with two registers set. -/
def fetching2 (pc w : Word) (r₁ : Reg) (v₁ : Word) (r₂ : Reg) (v₂ : Word) : State :=
  ((fetching pc w).setReg r₂ v₂).setReg r₁ v₁

/-- What is seen in the next state, if there is one. -/
def seen {α : Type} (o : Host.Outcome State Fault Refusal) (f : State → α) : Option α :=
  match o with
  | .next t => some (f t)
  | .fault _ => none
  | .refused _ => none

/-- The next state, if there is one, else reset: for the witnesses. -/
def nextOf (o : Host.Outcome State Fault Refusal) : State :=
  match o with
  | .next t => t
  | .fault _ => State.reset
  | .refused _ => State.reset

/-- V2, start with all flags 1: MOVI R7, 511 clears Carry and does not sign-extend. -/
theorem test_movi_511 : seen (step ((fetching 0x0000#16 0x1FFF#16).setFlags ⟨true, true, true⟩))
    (fun t => (t.reg 7, t.flags)) = some (0x01FF#16, ⟨false, false, false⟩) := by decide
/-- V2: MOVI R0, 0 sets Zero. -/
theorem test_movi_zero : seen (step (fetching 0x0000#16 0x1000#16)) (·.flags) = some ⟨true, false, false⟩ := by decide
/-- V3: MOV R1, R2 with x[2] = 0x8000. -/
theorem test_mov : seen (step (fetching2 0x0000#16 0x2280#16 2 0x8000#16 1 0x1111#16)) (fun t => (t.reg 1, t.flags))
    = some (0x8000#16, ⟨false, false, true⟩) := by decide
/-- V4: LOAD R2, (R2) uses the old value as the address. -/
theorem test_load_same_register : seen (step { fetching2 0x0010#16 0x3480#16 2 0x0200#16 0 0#16 with
    mem := ⟨[(0x10, 0x3480#16), (0x200, 0x8001#16)]⟩ }) (fun t => (t.reg 2, t.flags, t.pc))
    = some (0x8001#16, ⟨false, false, true⟩, 0x0011#16) := by decide
/-- V4: LOAD R1, (R2) from its own address loads its own word. -/
theorem test_load_own_word : seen (step (fetching2 0x0010#16 0x3280#16 2 0x0010#16 0 0#16)) (·.reg 1)
    = some 0x3280#16 := by decide
/-- V4: STORE R0, (R3) with flags 1 1 1 kept. -/
theorem test_store : seen (step ((fetching2 0x0010#16 0x40C0#16 0 0x0005#16 3 0x0102#16).setFlags ⟨true, true, true⟩))
    (fun t => (memRead t.mem 0x0102#16, t.flags)) = some (0x0005#16, ⟨true, true, true⟩) := by decide
/-- V4: STORE R1, (R2) into the next cell is what the next step fetches. -/
theorem test_store_next_cell : seen (step (fetching2 0x0010#16 0x4280#16 1 0xBEEF#16 2 0x0011#16)) (·.fetch.ir)
    = some 0xBEEF#16 := by decide
/-- V5: 0xFFFF + 1 gives zero together with carry. -/
theorem test_add_wraps : seen (step (fetching2 0x0000#16 0x5280#16 1 0xFFFF#16 2 0x0001#16)) (fun t => (t.reg 1, t.flags))
    = some (0x0000#16, ⟨true, true, false⟩) := by decide
/-- V5: ADD R3, R3 with 0xC001. -/
theorem test_add_same_register : seen (step (fetching2 0x0000#16 0x56C0#16 3 0xC001#16 0 0#16))
    (fun t => (t.reg 3, t.flags)) = some (0x8002#16, ⟨false, true, true⟩) := by decide
/-- V6: 3 - 5 borrows. -/
theorem test_sub_borrow : seen (step (fetching2 0x0000#16 0x6280#16 1 0x0003#16 2 0x0005#16)) (fun t => (t.reg 1, t.flags))
    = some (0xFFFE#16, ⟨false, false, true⟩) := by decide
/-- V6: SUB of a register from itself. -/
theorem test_sub_self : seen (step (fetching2 0x0000#16 0x6480#16 2 0x1234#16 0 0#16)) (fun t => (t.reg 2, t.flags))
    = some (0x0000#16, ⟨true, true, false⟩) := by decide
/-- V7: AND. -/
theorem test_and : seen (step (fetching2 0x0000#16 0x7280#16 1 0xF0F0#16 2 0x8FF0#16)) (fun t => (t.reg 1, t.flags))
    = some (0x80F0#16, ⟨false, false, true⟩) := by decide
/-- V7: OR. -/
theorem test_or : seen (step (fetching2 0x0000#16 0x8280#16 1 0xF0F0#16 2 0x8FF0#16)) (fun t => (t.reg 1, t.flags))
    = some (0xFFF0#16, ⟨false, false, true⟩) := by decide
/-- V7: XOR. -/
theorem test_xor : seen (step (fetching2 0x0000#16 0x9280#16 1 0xF0F0#16 2 0x8FF0#16)) (fun t => (t.reg 1, t.flags))
    = some (0x7F00#16, ⟨false, false, false⟩) := by decide
/-- V8, the distinguishing vector: NOT R1, R2 complements the source. -/
theorem test_not_source : seen (step (fetching2 0x0000#16 0xA280#16 1 0x0F0F#16 2 0x00FF#16)) (fun t => (t.reg 1, t.flags))
    = some (0xFF00#16, ⟨false, false, true⟩) := by decide
/-- V9: SHL of 0x8001. -/
theorem test_shl : seen (step (fetching2 0x0000#16 0xB200#16 1 0x8001#16 0 0#16)) (fun t => (t.reg 1, t.flags))
    = some (0x0002#16, ⟨false, true, false⟩) := by decide
/-- V9: SHR of 0x8001 is logical. -/
theorem test_shr : seen (step (fetching2 0x0000#16 0xC200#16 1 0x8001#16 0 0#16)) (fun t => (t.reg 1, t.flags))
    = some (0x4000#16, ⟨false, true, false⟩) := by decide
/-- V11: JMP R7. -/
theorem test_jmp : seen (step (fetching2 0x0009#16 0xD1C0#16 7 0x0006#16 0 0#16)) (·.pc) = some 0x0006#16 := by decide
/-- V11: JZ R6, taken. -/
theorem test_jz_taken : seen (step ((fetching2 0x0008#16 0xE180#16 6 0x000A#16 0 0#16).setFlags ⟨true, false, false⟩))
    (fun t => (t.pc, t.flags.z)) = some (0x000A#16, true) := by decide
/-- V11: JZ R6 not taken at 0xFFFF: the advance wraps. -/
theorem test_jz_not_taken_wraps : seen (step (fetching2 0xFFFF#16 0xE180#16 6 0x000A#16 0 0#16)) (·.pc)
    = some 0x0000#16 := by decide
/-- V11, V12: HALT at 0x0007. -/
theorem test_halt : seen (step (fetching 0x0007#16 0x0000#16)) (fun t => (t.halted, t.pc)) = some (true, 0x0008#16) := by
  decide
/-- V11: NOP at 0xFFFF. -/
theorem test_nop_wraps : seen (step (fetching 0xFFFF#16 0xF000#16)) (fun t => (t.pc, t.ir))
    = some (0x0000#16, 0xF000#16) := by decide
/-- V12: after construction with nothing loaded, one step halts and `run()` reports 1. -/
theorem test_run_after_construction : (hostRun 1 State.reset).map (fun p => (p.1.halted, p.1.pc, p.2))
    = some (true, 0x0001#16, 1) := by decide
/-- V12: a step of a halted machine is the identity. -/
theorem test_halted_identity : seen (step State.reset.setHalted) id = some State.reset.setHalted := by decide
/-- The word the host places is the instruction the next step runs. -/
theorem test_withFetchWord : seen (step (State.reset.withFetchWord 16 0x1702)) (fun t => (t.reg 3, t.ir))
    = some (0x0102#16, 0x1702#16) := by decide
/-- Writing 0 to a listed cell removes it: the canonical form. -/
theorem test_write_zero_unlists : memWrite ⟨[(5, 1#16), (9, 2#16)]⟩ 5#16 0#16 = ⟨[(9, 2#16)]⟩ := by decide
/-- The LOAD step puts its two reads on the bus in order (R46). -/
theorem test_load_transactions : transactionsWith defaultOpMap (fetching2 0x0010#16 0x3040#16 1 0x0100#16 0 0#16)
    = [.read 0x0010#16, .read 0x0100#16] := by decide

/-! ## Witnesses: the hypotheses of each statement can be met

The witnesses of the sixteen instruction statements show the default numbering well-formed and a word whose opcode field
holds the instruction's number; their frames are over another register or another cell. -/

theorem witness_MoviLoadsZeroExtendedImmediate : defaultOpMap.wellFormed = true ∧
    (fieldsOf 0x1FFF#16).op = defaultOpMap.codeOf .MOVI ∧ (0 : Reg) ≠ 7 := by decide
theorem witness_MovCopiesRegister : defaultOpMap.wellFormed = true ∧
    (fieldsOf 0x2280#16).op = defaultOpMap.codeOf .MOV ∧ (0 : Reg) ≠ 7 := by decide
theorem witness_LoadReadsAddressedCell : defaultOpMap.wellFormed = true ∧
    (fieldsOf 0x3040#16).op = defaultOpMap.codeOf .LOAD ∧ (0 : Reg) ≠ 7 := by decide
/-- A canonical memory, an effective address at the top of the address space, and another cell below it. -/
theorem witness_StoreWritesAddressedCell : defaultOpMap.wellFormed = true ∧
    (fieldsOf 0x40C0#16).op = defaultOpMap.codeOf .STORE ∧
    (fetching2 0x0010#16 0x40C0#16 3 0xFFFF#16 0 5#16).mem.wf = true ∧
    (0xFFFE#16 : Word) ≠ (fetching2 0x0010#16 0x40C0#16 3 0xFFFF#16 0 5#16).effectiveAddr 3 := by decide
theorem witness_AddWrapsAndCarries : defaultOpMap.wellFormed = true ∧
    (fieldsOf 0x5100#16).op = defaultOpMap.codeOf .ADD ∧ (0 : Reg) ≠ 7 := by decide
theorem witness_SubWrapsAndReportsNoBorrow : defaultOpMap.wellFormed = true ∧
    (fieldsOf 0x64C0#16).op = defaultOpMap.codeOf .SUB ∧ (0 : Reg) ≠ 7 := by decide
theorem witness_AndIsBitwise : defaultOpMap.wellFormed = true ∧
    (fieldsOf 0x7280#16).op = defaultOpMap.codeOf .AND ∧ (0 : Reg) ≠ 7 := by decide
theorem witness_OrIsBitwise : defaultOpMap.wellFormed = true ∧
    (fieldsOf 0x8A95#16).op = defaultOpMap.codeOf .OR ∧ (0 : Reg) ≠ 7 := by decide
theorem witness_XorIsBitwise : defaultOpMap.wellFormed = true ∧
    (fieldsOf 0x9D80#16).op = defaultOpMap.codeOf .XOR ∧ (0 : Reg) ≠ 7 := by decide
theorem witness_NotComplementsSource : defaultOpMap.wellFormed = true ∧
    (fieldsOf 0xA280#16).op = defaultOpMap.codeOf .NOT ∧ (0 : Reg) ≠ 7 := by decide
theorem witness_ShlShiftsLeftByOne : defaultOpMap.wellFormed = true ∧
    (fieldsOf 0xB3FF#16).op = defaultOpMap.codeOf .SHL ∧ (0 : Reg) ≠ 7 := by decide
theorem witness_ShrShiftsRightLogically : defaultOpMap.wellFormed = true ∧
    (fieldsOf 0xC200#16).op = defaultOpMap.codeOf .SHR ∧ (0 : Reg) ≠ 7 := by decide
theorem witness_JmpLoadsPc : defaultOpMap.wellFormed = true ∧
    (fieldsOf 0xDFFF#16).op = defaultOpMap.codeOf .JMP := by decide
/-- A state for each clause: Zero set, Zero clear. -/
theorem witness_JzJumpsExactlyOnZero : defaultOpMap.wellFormed = true ∧
    (fieldsOf 0xE180#16).op = defaultOpMap.codeOf .JZ ∧
    (State.reset.setFlags ⟨true, false, false⟩).flags.z = true ∧ State.reset.flags.z = false := by decide
theorem witness_HaltSetsHalted : defaultOpMap.wellFormed = true ∧
    (fieldsOf 0x0ABC#16).op = defaultOpMap.codeOf .HALT ∧ (fetching 0xFFFF#16 0x0ABC#16).halted = false ∧
    nextInstr defaultOpMap (fetching 0xFFFF#16 0x0ABC#16) = .halt := by decide
theorem witness_NopChangesNothing : defaultOpMap.wellFormed = true ∧
    (fieldsOf 0xFFFF#16).op = defaultOpMap.codeOf .NOP ∧ (fetching 0xFFFF#16 0xF000#16).halted = false ∧
    nextInstr defaultOpMap (fetching 0xFFFF#16 0xF000#16) = .nop := by decide
/-- A state for each clause: halted; running, with an ADD at the last cell. -/
theorem witness_StepFetchesAdvancesDecodesExecutes : State.reset.setHalted.halted = true ∧
    (fetching 0xFFFF#16 0x5100#16).halted = false ∧
    decodeWith defaultOpMap (memRead (fetching 0xFFFF#16 0x5100#16).mem 0xFFFF#16) = .add 0 4 := by decide
theorem witness_EveryStepCompletes : State.reset.setHalted.halted = true := by decide
theorem witness_HaltedStepDoesNoWork : State.reset.setHalted.halted = true := by decide
/-- A state for each clause: halted; JMP; JZ with Zero set and clear; ADD, at the last cell. -/
theorem witness_PcAfterEveryStep : State.reset.setHalted.halted = true ∧
    (fetching 0xFFFF#16 0xD1C0#16).halted = false ∧ nextInstr defaultOpMap (fetching 0xFFFF#16 0xD1C0#16) = .jmp 7 ∧
    nextInstr defaultOpMap ((fetching 0xFFFF#16 0xE180#16).setFlags ⟨true, false, false⟩) = .jz 6 ∧
    nextInstr defaultOpMap (fetching 0xFFFF#16 0xE180#16) = .jz 6 ∧
    nextInstr defaultOpMap (fetching 0xFFFF#16 0x5100#16) = .add 0 4 := by decide
theorem witness_HaltedChangesOnlyByHaltAndReset : State.reset.setHalted.halted = true ∧ State.reset.halted = false ∧
    nextInstr defaultOpMap State.reset = .halt ∧ nextInstr defaultOpMap (fetching 0#16 0xF000#16) = .nop := by decide
theorem witness_FlagRuleForEveryInstruction : flagAffecting (.movi 0 0#9) = true ∧ flagAffecting (.store 0 0) = false := by
  decide
/-- A running machine at a STORE, a register and a cell outside the effects; at a flag-free instruction; at a LOAD. -/
theorem witness_StepEffectsAreBounded : (fetching2 0#16 0x40C0#16 3 0xFFFF#16 0 5#16).halted = false ∧
    nextInstr defaultOpMap (fetching2 0#16 0x40C0#16 3 0xFFFF#16 0 5#16) = .store 0 3 ∧
    destReg (.store 0 3) ≠ some 0 ∧
    storeAddr (.store 0 3) (fetching2 0#16 0x40C0#16 3 0xFFFF#16 0 5#16) ≠ some 0xFFFE#16 ∧
    flagAffecting (.store 0 3) = false ∧ (∀ rs, (Instr.store 0 3) ≠ .jmp rs ∧ (Instr.store 0 3) ≠ .jz rs) ∧
    (dataTransaction (.load 0 1) State.reset).isSome = true := by decide
/-- A state for each clause: halted; LOAD; STORE; neither. -/
theorem witness_BusTransactionsOfEveryStep : State.reset.setHalted.halted = true ∧
    (fetching 0#16 0x3040#16).halted = false ∧ nextInstr defaultOpMap (fetching 0#16 0x3040#16) = .load 0 1 ∧
    nextInstr defaultOpMap (fetching 0#16 0x40C0#16) = .store 0 3 ∧
    nextInstr defaultOpMap (fetching 0#16 0x5100#16) = .add 0 4 := by decide
theorem witness_BusSignalsOfEveryStep : (fetching 0xFFFF#16 0x3040#16).halted = false ∧
    Transaction.read 0xFFFF#16 ∈ transactionsWith defaultOpMap (fetching 0xFFFF#16 0x3040#16) ∧
    nextInstr defaultOpMap (fetching 0xFFFF#16 0x3040#16) = .load 0 1 := by decide
/-- Two machines at one LOAD, which differ in a cell the step does not read. -/
theorem witness_StepReadsMemoryOnlyOnTheBus :
    (fetching2 0#16 0x3040#16 1 0x0100#16 0 0#16).agreeProcessor
      ((fetching2 0#16 0x3040#16 1 0x0100#16 0 0#16).hostWrite 0x0200#16 7#16) ∧
    (∀ a, Transaction.read a ∈ transactionsWith defaultOpMap (fetching2 0#16 0x3040#16 1 0x0100#16 0 0#16) →
      memRead (fetching2 0#16 0x3040#16 1 0x0100#16 0 0#16).mem a =
        memRead ((fetching2 0#16 0x3040#16 1 0x0100#16 0 0#16).hostWrite 0x0200#16 7#16).mem a) := by
  have h : transactionsWith defaultOpMap (fetching2 0#16 0x3040#16 1 0x0100#16 0 0#16) = [.read 0#16, .read 0x0100#16] := by
    decide
  refine ⟨⟨rfl, rfl, rfl, rfl, rfl⟩, fun a ha => ?_⟩
  rw [h] at ha
  simp only [List.mem_cons, Transaction.read.injEq, List.not_mem_nil, or_false] at ha
  rcases ha with rfl | rfl <;> decide
/-- Two states that differ in a register ADD R1, R2 does not read. -/
theorem witness_OnlySourceRegistersMatter :
    (∀ r ∈ sourceRegs (.add 1 2), State.reset.reg r = (State.reset.setReg 5 9#16).reg r) ∧
    State.reset.pc = (State.reset.setReg 5 9#16).pc ∧ State.reset.flags.z = (State.reset.setReg 5 9#16).flags.z ∧
    State.reset.mem = (State.reset.setReg 5 9#16).mem ∧ State.reset ≠ State.reset.setReg 5 9#16 ∧
    destReg (.add 1 2) = some 1 ∧ flagAffecting (.add 1 2) = true := by decide
/-- Two different states that agree on all a program can act on. -/
theorem witness_CarryNegativeAndIrAreNeverRead :
    State.reset.agreeVisible ((State.reset.setFlags ⟨false, true, true⟩).setIr 7#16) ∧
    State.reset ≠ (State.reset.setFlags ⟨false, true, true⟩).setIr 7#16 :=
  ⟨⟨rfl, rfl, rfl, rfl, rfl⟩, by decide⟩
/-- A STORE from a state with the invariant. -/
theorem witness_StepKeepsInvariant : (fetching2 0#16 0x40C0#16 3 0xFFFF#16 0 5#16).inv = true ∧
    step (fetching2 0#16 0x40C0#16 3 0xFFFF#16 0 5#16) =
      .next (nextOf (step (fetching2 0#16 0x40C0#16 3 0xFFFF#16 0 5#16))) := ⟨by decide, rfl⟩
theorem witness_HostActionsKeepInvariant : (fetching 0xFFFF#16 0x5100#16).inv = true := by decide
theorem witness_DecodeInvertsEncode : defaultOpMap.wellFormed = true ∧ (Instr.movi 7 511#9).wellFormed = true := by decide
theorem witness_EncodeInvertsDecodeOnUsedBits : defaultOpMap.wellFormed = true := by decide
theorem witness_WordsDecodeAlikeIffUsedBitsAgree : defaultOpMap.wellFormed = true ∧
    0xD1C0#16 &&& usedBitsOf defaultOpMap 0xD1C0#16 = 0xDFFF#16 &&& usedBitsOf defaultOpMap 0xD1C0#16 := by decide
/-- A partial map and a state whose word it maps to nothing; and a well-formed map. -/
theorem witness_UnmappedOpcodeRunsAsNop : (fetching 0#16 0xF000#16).halted = false ∧
    partialMap.mnemonicOf (fieldsOf (memRead (fetching 0#16 0xF000#16).mem 0#16)).op = none ∧
    defaultOpMap.wellFormed = true := by decide
theorem witness_LastWriteToACellWins : (⟨[(0, 1#16), (65535, 2#16)]⟩ : Memory).wf = true := by decide
theorem witness_CanonicalMemoriesThatReadAlikeAreEqual :
    (⟨[(0, 1#16)]⟩ : Memory).wf = true ∧ (memWrite ⟨[]⟩ 0#16 1#16).wf = true ∧
    ∀ a : Word, memRead ⟨[(0, 1#16)]⟩ a = memRead (memWrite ⟨[]⟩ 0#16 1#16) a := ⟨by decide, by decide, fun _ => rfl⟩
/-- A memory of 256 cells: the first address outside it, the last inside it and its neighbour. -/
theorem witness_OutOfRangeAccessIsSilent : 256 ≤ (0x0100#16 : Word).toNat ∧ (0x00FF#16 : Word).toNat < 256 ∧
    (⟨[(0, 1#16)]⟩ : Memory).wf = true ∧ (0x00FE#16 : Word) ≠ 0x00FF#16 := by decide
/-- A STORE at the last cell but one into the next cell. -/
theorem witness_StoreIsSeenByTheNextFetch : (fetching2 0xFFFE#16 0x4280#16 2 0xFFFF#16 1 0xBEEF#16).halted = false ∧
    (fetching2 0xFFFE#16 0x4280#16 2 0xFFFF#16 1 0xBEEF#16).mem.wf = true ∧
    nextInstr defaultOpMap (fetching2 0xFFFE#16 0x4280#16 2 0xFFFF#16 1 0xBEEF#16) = .store 1 2 ∧
    (fetching2 0xFFFE#16 0x4280#16 2 0xFFFF#16 1 0xBEEF#16).reg 2 = nextPc 0xFFFE#16 := by decide
theorem witness_LoadSeesThePrecedingStore : (fetching 0xFFFF#16 0x5100#16).mem.wf = true := by decide
theorem witness_AddSubIdentities : (1 : Reg) ≠ 2 := by decide
/-- Two words loaded at the last cell: the second wraps to cell 0, and cell 1 is outside. -/
theorem witness_HostLoadPlacesTheProgram : State.reset.mem.wf = true ∧ [0x1300#16, 0x0000#16].length ≤ 65536 ∧
    1 < [0x1300#16, 0x0000#16].length ∧
    ∀ k, k < [0x1300#16, 0x0000#16].length → (0x0001#16 : Word) ≠ 0xFFFF#16 + BitVec.ofNat 16 k := by
  refine ⟨by decide, by decide, by decide, fun k hk => ?_⟩
  rcases k with _ | _ | k
  · decide
  · decide
  · simp at hk
/-- One state reached two ways: written directly, and by a write that is undone. -/
theorem witness_HostObservesTheWholeState : (fetching 0xFFFF#16 0x3040#16).mem.wf = true ∧
    (((fetching 0xFFFF#16 0x3040#16).hostWrite 5#16 1#16).hostWrite 5#16 0#16).mem.wf = true ∧
    (fetching 0xFFFF#16 0x3040#16).snapshot =
      (((fetching 0xFFFF#16 0x3040#16).hostWrite 5#16 1#16).hostWrite 5#16 0#16).snapshot ∧
    (fetching 0xFFFF#16 0x3040#16).running =
      (((fetching 0xFFFF#16 0x3040#16).hostWrite 5#16 1#16).hostWrite 5#16 0#16).running ∧
    ∀ a, (fetching 0xFFFF#16 0x3040#16).hostRead a =
      (((fetching 0xFFFF#16 0x3040#16).hostWrite 5#16 1#16).hostWrite 5#16 0#16).hostRead a :=
  ⟨by decide, by decide, rfl, rfl, fun _ => rfl⟩
theorem witness_HaltedIsTerminal : State.reset.setHalted.halted = true := by decide
/-- Both sides of the equivalence: from reset, one step to the first halted state. -/
theorem witness_RunStopsAtTheFirstHaltedState : hostRun 1 State.reset = some ((hostStep State.reset).1, 1) ∧
    (hostStep State.reset).1.halted = true ∧ State.reset.halted = false := by decide

end Sys2Proof.Tests
end

/-! SUPPORT. What an instruction does, as data: an effect, computed from what the instruction reads, and its application
to the state. `exec_eq_apply` ties the two to `exec`. What holds of every instruction is then proved over the five kinds
of effect, and what an instruction can depend on is what its effect depends on (`effectOf_congr`, R11). -/

namespace Sys2Proof.Machine

/-- The five things an execute body can do to the state it takes. -/
inductive Effect
  | nothing
  | result (rd : Reg) (r : Word) (c : Bool)
  | store (addr v : Word)
  | jump (target : Word)
  | halt

/-- The state after an effect. -/
def Effect.apply (e : Effect) (s : State) : State :=
  match e with
  | .nothing => s
  | .result rd r c => s.writeResult rd r c
  | .store addr v => s.setMem (memWrite s.mem addr v)
  | .jump target => s.setPc target
  | .halt => s.setHalted

/-- The effect of an instruction in a state, tied to `exec` by `exec_eq_apply`. -/
def effectOf (i : Instr) (s : State) : Effect :=
  match i with
  | .halt => .halt
  | .movi rd imm => .result rd (immValue imm) carryCleared
  | .mov rd rs => .result rd (s.reg rs) carryCleared
  | .load rd rs => .result rd (memRead s.mem (s.reg rs)) carryCleared
  | .store rd rs => .store (s.reg rs) (s.reg rd)
  | .add rd rs =>
    .result rd (BitVec.ofNat 16 ((s.reg rd).toNat + (s.reg rs).toNat)) (addCarry (s.reg rd) (s.reg rs))
  | .sub rd rs =>
    .result rd (BitVec.ofInt 16 ((s.reg rd).toNat - (s.reg rs).toNat)) (subNoBorrow (s.reg rd) (s.reg rs))
  | .and rd rs => .result rd (s.reg rd &&& s.reg rs) carryCleared
  | .or rd rs => .result rd (s.reg rd ||| s.reg rs) carryCleared
  | .xor rd rs => .result rd (s.reg rd ^^^ s.reg rs) carryCleared
  | .not rd rs => .result rd (~~~(s.reg rs)) carryCleared
  | .shl rd => .result rd (s.reg rd <<< 1) (shlCarry (s.reg rd))
  | .shr rd => .result rd (s.reg rd >>> 1) (shrCarry (s.reg rd))
  | .jmp rs => .jump (s.reg rs)
  | .jz rs => if s.flags.z then .jump (s.reg rs) else .nothing
  | .nop => .nothing

/-- Every instruction answers the state its effect leaves (R90, R92). -/
theorem exec_eq_apply (i : Instr) (s : State) : exec i s = .next ((effectOf i s).apply s) := by
  cases i with
  | jz rs => cases hz : s.flags.z <;> simp [exec_jz, effectOf, hz, Effect.apply]
  | _ => rfl

/-! ## What an effect does to each part of the state -/

/-- The register an effect writes, if any. -/
def Effect.dest : Effect → Option Reg
  | .result rd _ _ => some rd
  | .nothing | .store _ _ | .jump _ | .halt => none

/-- The address an effect loads `pc` with, if any. -/
def Effect.target : Effect → Option Word
  | .jump target => some target
  | .nothing | .result _ _ _ | .store _ _ | .halt => none

theorem Effect.apply_pc (e : Effect) (s : State) : (e.apply s).pc = e.target.getD s.pc := by
  cases e <;> rfl

theorem Effect.apply_halted (e : Effect) (s : State) :
    (e.apply s).halted = true ↔ s.halted = true ∨ e = .halt := by
  cases e <;> simp [apply]

/-- What an effect leaves in its destination register does not depend on the state it is applied to. -/
theorem Effect.apply_reg_dest {e : Effect} {rd : Reg} (h : e.dest = some rd) (s₁ s₂ : State) :
    (e.apply s₁).reg rd = (e.apply s₂).reg rd := by
  cases e with
  | result rd' r c =>
    obtain rfl : rd' = rd := Option.some.inj h
    simp [apply]
  | _ => cases h

/-- The flags an effect with a destination register leaves do not depend on the state it is applied to (R86). -/
theorem Effect.apply_flags_of_dest {e : Effect} (h : e.dest.isSome = true) (s₁ s₂ : State) :
    (e.apply s₁).flags = (e.apply s₂).flags := by
  cases e with
  | result rd r c => rfl
  | _ => cases h

/-- The memory an effect leaves depends on the memory it is applied to, and on nothing else. -/
theorem Effect.apply_mem_congr (e : Effect) {s₁ s₂ : State} (h : s₁.mem = s₂.mem) :
    (e.apply s₁).mem = (e.apply s₂).mem := by
  cases e with
  | store addr v => exact congrArg (memWrite · addr v) h
  | _ => exact h

/-- An effect keeps the agreement of two states on all a program can act on. -/
theorem Effect.apply_agreeVisible (e : Effect) {s₁ s₂ : State} (h : s₁.agreeVisible s₂) :
    (e.apply s₁).agreeVisible (e.apply s₂) := by
  obtain ⟨hx, hpc, hz, hh, hm⟩ := h
  cases e <;> simp [apply, State.agreeVisible, hx, hpc, hz, hh, hm]

/-! ## The effect of each instruction -/

theorem dest_effectOf (i : Instr) (s : State) : (effectOf i s).dest = destReg i := by
  cases i with
  | jz rs => cases hz : s.flags.z <;> simp [effectOf, hz, Effect.dest, destReg]
  | _ => rfl

theorem flagAffecting_eq_isSome_destReg (i : Instr) : flagAffecting i = (destReg i).isSome := by
  cases i <;> rfl

theorem effectOf_eq_halt_iff (i : Instr) (s : State) : effectOf i s = .halt ↔ i = .halt := by
  cases i with
  | jz rs => cases hz : s.flags.z <;> simp [effectOf, hz]
  | _ => simp [effectOf]

/-- Only JMP and JZ load `pc` (R13). -/
theorem target_effectOf_eq_none {i : Instr} (hjmp : ∀ rs, i ≠ .jmp rs) (hjz : ∀ rs, i ≠ .jz rs) (s : State) :
    (effectOf i s).target = none := by
  cases i with
  | jmp rs => exact absurd rfl (hjmp rs)
  | jz rs => exact absurd rfl (hjz rs)
  | _ => rfl

theorem target_effectOf_jmp (rs : Reg) (s : State) : (effectOf (.jmp rs) s).target = some (s.reg rs) := rfl

theorem target_effectOf_jz (rs : Reg) (s : State) :
    (effectOf (.jz rs) s).target = if s.flags.z then some (s.reg rs) else none := by
  cases hz : s.flags.z <;> simp [effectOf, hz, Effect.target]

/-- The effect of an instruction depends only on its source registers, the Zero flag and memory: not on `pc`, Carry,
Negative, `ir` or `halted` (R11, R15, R17). -/
theorem effectOf_congr {i : Instr} {s₁ s₂ : State} (hr : ∀ r ∈ sourceRegs i, s₁.reg r = s₂.reg r)
    (hz : s₁.flags.z = s₂.flags.z) (hm : s₁.mem = s₂.mem) : effectOf i s₁ = effectOf i s₂ := by
  cases i with
  | halt | nop | movi rd imm => rfl
  | mov rd rs | load rd rs | not rd rs | jmp rs | jz rs =>
    have hs : s₁.reg rs = s₂.reg rs := hr rs (by simp [sourceRegs])
    simp [effectOf, hs, hz, hm]
  | shl rd | shr rd =>
    have hd : s₁.reg rd = s₂.reg rd := hr rd (by simp [sourceRegs])
    simp [effectOf, hd]
  | store rd rs | add rd rs | sub rd rs | and rd rs | or rd rs | xor rd rs =>
    have hd : s₁.reg rd = s₂.reg rd := hr rd (by simp [sourceRegs])
    have hs : s₁.reg rs = s₂.reg rs := hr rs (by simp [sourceRegs])
    simp [effectOf, hd, hs]

/-! ## The step -/

/-- A running machine applies the effect of its next instruction, computed before the fetch or after it alike, to the
fetched state (R81). -/
theorem stepWith_running_eq_apply (m : OpMap) {s : State} (h : s.halted = false) :
    stepWith m s = .next ((effectOf (nextInstr m s) s).apply s.fetch) := by
  have hfetch : effectOf (nextInstr m s) s.fetch = effectOf (nextInstr m s) s :=
    effectOf_congr (fun _ _ => rfl) rfl rfl
  rw [stepWith_running m h, exec_eq_apply, ← hfetch]
  rfl

/-- All a step can do (R81, R83). -/
theorem stepWith_cases {m : OpMap} {s t : State} (h : stepWith m s = .next t) :
    (s.halted = true ∧ t = s) ∨
    (s.halted = false ∧ t = (effectOf (nextInstr m s) s).apply s.fetch) := by
  cases hh : s.halted with
  | true =>
    rw [stepWith_halted m hh] at h
    exact .inl ⟨rfl, (Host.Outcome.next.inj h).symm⟩
  | false =>
    rw [stepWith_running_eq_apply m hh] at h
    exact .inr ⟨rfl, (Host.Outcome.next.inj h).symm⟩

/-- Every step answers a next state (R90). -/
theorem stepWith_completes (m : OpMap) (s : State) : Completes (stepWith m s) := by
  cases hh : s.halted with
  | true => exact ⟨s, stepWith_halted m hh⟩
  | false => exact ⟨_, stepWith_running_eq_apply m hh⟩

/-! ## The invariant (O30, O31) -/

theorem State.inv_iff (s : State) : s.inv = true ↔ s.mem.wf = true ∧ s.flags.exclusive = true := by
  simp [State.inv]

/-- The flags of a result exclude each other (R86). -/
theorem exclusive_flagsZN (r : Word) (c : Bool) : (flagsZN r c).exclusive = true := by
  simp [Flags.exclusive, flagsZN_exclusive]

/-- Latching `ir` and advancing `pc` touch no part of the invariant. -/
theorem fetch_inv (s : State) : s.fetch.inv = s.inv := rfl

/-- Every effect keeps the invariant: a store the canonical form of memory, a result the exclusion of the flags. -/
theorem Effect.apply_inv (e : Effect) {s : State} (h : s.inv = true) : (e.apply s).inv = true := by
  obtain ⟨hmem, hflags⟩ := (State.inv_iff s).1 h
  refine (State.inv_iff _).2 ?_
  cases e with
  | result rd r c => exact ⟨hmem, exclusive_flagsZN r c⟩
  | store addr v => exact ⟨wf_memWrite addr v hmem, hflags⟩
  | nothing | jump target | halt => exact ⟨hmem, hflags⟩

/-- Settles O30: a step does nothing or applies one effect to the fetched state, and both keep the invariant. -/
theorem stepKeepsInvariant : Obligations.StepKeepsInvariant := by
  intro s t hinv hstep
  rcases stepWith_cases hstep with ⟨-, rfl⟩ | ⟨-, rfl⟩
  · exact hinv
  · exact Effect.apply_inv _ ((fetch_inv s).trans hinv)

/-- Settles O31. -/
theorem resetSatisfiesInvariant : Obligations.ResetSatisfiesInvariant :=
  (State.inv_iff _).2 ⟨reset_mem_wf, rfl⟩

/-! ## The program counter and the halted indicator (O21, O22) -/

/-- Settles O21: the step of a running machine leaves `pc` at the target of its effect, or at the advanced value. -/
theorem pcAfterEveryStep : Obligations.PcAfterEveryStep := by
  intro m s
  obtain ⟨t, ht⟩ := stepWith_completes m s
  refine ⟨t, ht, ?_⟩
  rcases stepWith_cases ht with ⟨hh, rfl⟩ | ⟨hh, rfl⟩
  · simp [hh]
  · have hpc : ((effectOf (nextInstr m s) s).apply s.fetch).pc =
        (effectOf (nextInstr m s) s).target.getD (nextPc s.pc) := Effect.apply_pc _ _
    refine ⟨by simp [hh], fun _ => ⟨fun rs hi => ?_, fun rs hi hz => ?_, fun rs hi hz => ?_, fun hjmp hjz => ?_⟩⟩
    · rw [hpc, hi, target_effectOf_jmp, Option.getD_some]
    · rw [hpc, hi, target_effectOf_jz, if_pos hz, Option.getD_some]
    · rw [hpc, hi, target_effectOf_jz, if_neg (by simp [hz]), Option.getD_none, nextPc_toNat]
    · rw [hpc, target_effectOf_eq_none hjmp hjz, Option.getD_none, nextPc_toNat]

/-- A halted machine makes no bus transaction (R46, R83). -/
theorem transactionsWith_halted (m : OpMap) {s : State} (h : s.halted = true) : transactionsWith m s = [] := by
  simp [transactionsWith, h]

/-- A processor reset gives the state after construction, with the memory as it was (R151, D3). -/
theorem processorReset_eq (s : State) : s.processorReset = State.reset.setMem s.mem := rfl

/-- Settles O22: the one effect that sets the indicator is HALT's. -/
theorem haltedChangesOnlyByHaltAndReset : Obligations.HaltedChangesOnlyByHaltAndReset := by
  intro m s
  obtain ⟨t, ht⟩ := stepWith_completes m s
  have hreset : s.processorReset.halted = false := by rw [processorReset_eq]; rfl
  refine ⟨t, ht, ?_⟩
  rcases stepWith_cases ht with ⟨hh, rfl⟩ | ⟨hh, rfl⟩
  · exact ⟨fun _ => ⟨rfl, transactionsWith_halted m hh⟩, by simp [hh], hreset⟩
  · refine ⟨by simp [hh], fun _ => ?_, hreset⟩
    rw [Effect.apply_halted, effectOf_eq_halt_iff]
    simp [hh]

/-! ## What an instruction and a run depend on (O28, O29) -/

/-- Settles O28: the two states give the instruction one effect, and what that leaves in the parts named does not depend
on the rest of the state. -/
theorem onlySourceRegistersMatter : Obligations.OnlySourceRegistersMatter := by
  intro i s₁ s₂ hr hpc hz hm
  have heff : effectOf i s₂ = effectOf i s₁ := (effectOf_congr hr hz hm).symm
  have hexec₂ : exec i s₂ = .next ((effectOf i s₁).apply s₂) := heff ▸ exec_eq_apply i s₂
  refine ⟨_, _, exec_eq_apply i s₁, hexec₂, fun rd hd => ?_, ?_, ?_, fun hf => ?_⟩
  · exact Effect.apply_reg_dest ((dest_effectOf i s₁).trans hd) s₁ s₂
  · rw [Effect.apply_pc, Effect.apply_pc, hpc]
  · exact Effect.apply_mem_congr _ hm
  · rw [flagAffecting_eq_isSome_destReg, ← dest_effectOf i s₁] at hf
    exact Effect.apply_flags_of_dest hf s₁ s₂

/-- Two machines alike in all a program can act on run the same instruction next. -/
theorem nextInstr_congr (m : OpMap) {s₁ s₂ : State} (h : s₁.agreeVisible s₂) : nextInstr m s₁ = nextInstr m s₂ := by
  obtain ⟨-, hpc, -, -, hm⟩ := h
  simp [nextInstr, hpc, hm]

/-- Such machines give an instruction the same effect (R15, R17). -/
theorem effectOf_congr_of_agreeVisible (i : Instr) {s₁ s₂ : State} (h : s₁.agreeVisible s₂) :
    effectOf i s₁ = effectOf i s₂ := by
  obtain ⟨hx, -, hz, -, hm⟩ := h
  exact effectOf_congr (fun r _ => by simp [State.reg, hx]) hz hm

/-- Such machines stay alike through the fetch, which leaves `ir` unlike only where `ir` is not compared. -/
theorem fetch_agreeVisible {s₁ s₂ : State} (h : s₁.agreeVisible s₂) : s₁.fetch.agreeVisible s₂.fetch := by
  obtain ⟨hx, hpc, hz, hh, hm⟩ := h
  exact ⟨hx, congrArg nextPc hpc, hz, hh, hm⟩

/-- One step keeps two machines alike in all a program can act on. -/
theorem stepWith_agreeVisible (m : OpMap) {s₁ s₂ : State} (h : s₁.agreeVisible s₂) :
    ∃ t₁ t₂, stepWith m s₁ = .next t₁ ∧ stepWith m s₂ = .next t₂ ∧ t₁.agreeVisible t₂ := by
  obtain ⟨-, -, -, hh, -⟩ := id h
  cases hh₂ : s₂.halted with
  | true => exact ⟨s₁, s₂, stepWith_halted m (hh.trans hh₂), stepWith_halted m hh₂, h⟩
  | false =>
    have heff : effectOf (nextInstr m s₁) s₁ = effectOf (nextInstr m s₂) s₂ := by
      rw [nextInstr_congr m h, effectOf_congr_of_agreeVisible _ h]
    refine ⟨_, _, stepWith_running_eq_apply m (hh.trans hh₂), stepWith_running_eq_apply m hh₂, ?_⟩
    rw [heff]
    exact Effect.apply_agreeVisible _ (fetch_agreeVisible h)

/-- Settles O29, by induction on the number of steps. -/
theorem carryNegativeAndIrAreNeverRead : Obligations.CarryNegativeAndIrAreNeverRead := by
  intro k
  induction k with
  | zero => exact fun s₁ s₂ h => ⟨s₁, s₂, rfl, rfl, h⟩
  | succ k ih =>
    intro s₁ s₂ h
    obtain ⟨t₁, t₂, hstep₁, hstep₂, ht⟩ := stepWith_agreeVisible defaultOpMap h
    rw [core_run_succ k hstep₁, core_run_succ k hstep₂]
    exact ih t₁ t₂ ht

/-! ## The canonical form of memory (O41) -/

theorem cellsWf_cons_iff (lo k : Nat) (v : Word) (rest : List Cell) :
    cellsWf lo ((k, v) :: rest) = true ↔
      lo ≤ k ∧ k < Config.memCells ∧ v ≠ unlistedCell ∧ cellsWf (k + 1) rest = true := by
  simp [cellsWf, and_assoc]

theorem cellAt_cons_self (k : Nat) (v : Word) (rest : List Cell) : cellAt ((k, v) :: rest) k = v := by
  simp [cellAt]

/-- Two lists of cells read alike at every address of the memory. -/
def CellsReadAlike (c₁ c₂ : List Cell) : Prop := ∀ a, a < Config.memCells → cellAt c₁ a = cellAt c₂ a

theorem CellsReadAlike.symm {c₁ c₂ : List Cell} (h : CellsReadAlike c₁ c₂) : CellsReadAlike c₂ c₁ :=
  fun a ha => (h a ha).symm

/-- What reads like a list with a first entry cannot lie wholly above that entry: the entry is visible, since it does not
hold what an unlisted cell reads as. -/
theorem not_cellsWf_above_of_readAlike {lo k : Nat} {v : Word} {rest c : List Cell}
    (hwf : cellsWf lo ((k, v) :: rest) = true) (hread : CellsReadAlike ((k, v) :: rest) c) :
    ¬ cellsWf (k + 1) c = true := by
  obtain ⟨-, hk, hv, -⟩ := (cellsWf_cons_iff ..).1 hwf
  intro hc
  apply hv
  calc v = cellAt ((k, v) :: rest) k := (cellAt_cons_self ..).symm
    _ = cellAt c k := hread k hk
    _ = unlistedCell := cellAt_below hc (Nat.lt_succ_self k)

/-- So of two canonical lists that read alike, neither starts at a higher address than the other. -/
theorem head_le_of_readAlike {lo₁ lo₂ k₁ k₂ : Nat} {v₁ v₂ : Word} {r₁ r₂ : List Cell}
    (h₁ : cellsWf lo₁ ((k₁, v₁) :: r₁) = true) (h₂ : cellsWf lo₂ ((k₂, v₂) :: r₂) = true)
    (hread : CellsReadAlike ((k₁, v₁) :: r₁) ((k₂, v₂) :: r₂)) : k₂ ≤ k₁ := by
  obtain ⟨-, hk, hv, hr⟩ := (cellsWf_cons_iff ..).1 h₂
  by_contra hlt
  exact not_cellsWf_above_of_readAlike h₁ hread ((cellsWf_cons_iff ..).2 ⟨by omega, hk, hv, hr⟩)

/-- Behind one first entry, canonical lists that read alike go on reading alike: both hold nothing at its address. -/
theorem readAlike_tail {k : Nat} {v : Word} {r₁ r₂ : List Cell} (h₁ : cellsWf (k + 1) r₁ = true)
    (h₂ : cellsWf (k + 1) r₂ = true) (hread : CellsReadAlike ((k, v) :: r₁) ((k, v) :: r₂)) :
    CellsReadAlike r₁ r₂ := by
  intro a ha
  by_cases hk : k = a
  · rw [cellAt_below h₁ (by omega), cellAt_below h₂ (by omega)]
  · simpa [cellAt, hk] using hread a ha

/-- Canonical lists of cells that read alike are equal. -/
theorem cells_ext {c₁ c₂ : List Cell} {lo : Nat} (h₁ : cellsWf lo c₁ = true) (h₂ : cellsWf lo c₂ = true)
    (hread : CellsReadAlike c₁ c₂) : c₁ = c₂ := by
  induction c₁ generalizing c₂ lo with
  | nil =>
    cases c₂ with
    | nil => rfl
    | cons d r₂ => exact absurd rfl (not_cellsWf_above_of_readAlike h₂ hread.symm)
  | cons c r₁ ih =>
    cases c₂ with
    | nil => exact absurd rfl (not_cellsWf_above_of_readAlike h₁ hread)
    | cons d r₂ =>
      obtain ⟨k, v⟩ := c
      obtain ⟨k₂, v₂⟩ := d
      obtain rfl : k = k₂ := le_antisymm (head_le_of_readAlike h₂ h₁ hread.symm) (head_le_of_readAlike h₁ h₂ hread)
      obtain ⟨-, hk, -, hr₁⟩ := (cellsWf_cons_iff ..).1 h₁
      obtain ⟨-, -, -, hr₂⟩ := (cellsWf_cons_iff ..).1 h₂
      obtain rfl : v = v₂ := by simpa [cellAt] using hread k hk
      rw [ih hr₁ hr₂ (readAlike_tail hr₁ hr₂ hread)]

/-- Settles O41: a bus read at every address is a read of every cell of the two lists. -/
theorem canonicalMemoriesThatReadAlikeAreEqual : Obligations.CanonicalMemoriesThatReadAlikeAreEqual := by
  intro m₁ m₂ h₁ h₂ hread
  have hcells : CellsReadAlike m₁.cells m₂.cells := by
    intro a ha
    have hword : (BitVec.ofNat 16 a).toNat = a := Nat.mod_eq_of_lt ha
    simpa only [memRead_eq, hword] using hread (BitVec.ofNat 16 a)
  exact congrArg Memory.mk (cells_ext h₁ h₂ hcells)

/-! ## Construction and reset (O48, O49) -/

/-- Settles O48. -/
theorem constructionState : Obligations.ConstructionState :=
  ⟨rfl, reset_reg, rfl, rfl, rfl, rfl, memRead_empty⟩

/-- Settles O49: the processor state is that of construction, and the memory is the one before. -/
theorem processorResetRestoresAllButMemory : Obligations.ProcessorResetRestoresAllButMemory := by
  intro s
  rw [processorReset_eq]
  exact ⟨reset_reg, rfl, rfl, rfl, rfl, fun _ => rfl⟩

end Sys2Proof.Machine

/-! SUPPORT. The bus of a step, memory under a sequence of writes, and the host's writes. The memory laws come first,
then what a step's transactions are and how they account for its effect, then the statements settled from them. -/

namespace Sys2Proof.Machine

/-! ## Reads after writes, with any number of cells (O40, O42) -/

theorem busRead_outside {cells : Nat} (m : Memory) {a : Word} (h : cells ≤ a.toNat) :
    busRead cells m a = 0x0000#16 :=
  if_neg (Nat.not_lt.2 h)

theorem busWrite_outside {cells : Nat} (m : Memory) {a : Word} (v : Word) (h : cells ≤ a.toNat) :
    busWrite cells m a v = m :=
  if_neg (Nat.not_lt.2 h)

theorem busRead_inside {cells : Nat} (m : Memory) {a : Word} (h : a.toNat < cells) :
    busRead cells m a = cellAt m.cells a.toNat :=
  if_pos h

theorem busWrite_inside {cells : Nat} (m : Memory) {a : Word} (v : Word) (h : a.toNat < cells) :
    busWrite cells m a v = ⟨putCell m.cells a.toNat v⟩ :=
  if_pos h

theorem busRead_busWrite_same {cells : Nat} {m : Memory} {a : Word} (v : Word) (hm : m.wf = true)
    (h : a.toNat < cells) : busRead cells (busWrite cells m a v) a = v := by
  rw [busWrite_inside m v h, busRead_inside _ h]
  exact cellAt_putCell_same v hm

/-- A write to a cell of the memory leaves every other address alone, those outside the memory included. -/
theorem busRead_busWrite_ne {cells : Nat} (m : Memory) {a b : Word} (v : Word) (h : a.toNat < cells) (hne : b ≠ a) :
    busRead cells (busWrite cells m a v) b = busRead cells m b := by
  rw [busWrite_inside m v h]
  rcases Nat.lt_or_ge b.toNat cells with hb | hb
  · rw [busRead_inside _ hb, busRead_inside m hb]
    exact cellAt_putCell_ne _ _ (fun e => hne (BitVec.eq_of_toNat_eq e))
  · rw [busRead_outside _ hb, busRead_outside m hb]

theorem memRead_memWrite {m : Memory} (a b v : Word) (h : m.wf = true) :
    memRead (memWrite m b v) a = if b = a then v else memRead m a := by
  split
  · next hba => subst hba; exact memRead_memWrite_same b v h
  · next hba => exact memRead_memWrite_ne m v (Ne.symm hba)

/-- Settles O42. -/
theorem outOfRangeAccessIsSilent : Obligations.OutOfRangeAccessIsSilent :=
  ⟨fun _ m _ v h => ⟨busRead_outside m h, busWrite_outside m v h⟩,
    fun _ m _ _ v hm h => ⟨busRead_busWrite_same v hm h, busRead_busWrite_ne m v h⟩,
    fun a => a.isLt⟩

/-- Settles O40, by induction on the writes: what the cell reads after the first is what `lastWritten` starts the others
from. -/
theorem lastWriteToACellWins : Obligations.LastWriteToACellWins := by
  intro ws
  induction ws with
  | nil => exact fun _ _ _ => rfl
  | cons w rest ih =>
    intro m a hm
    obtain ⟨b, v⟩ := w
    rw [List.foldl_cons, ih _ a (wf_memWrite b v hm), memRead_memWrite a b v hm, lastWritten]

/-! ## The writes of the host (O32, O50) -/

theorem hostRead_hostWrite_same {s : State} (a v : Word) (h : s.mem.wf = true) : (s.hostWrite a v).hostRead a = v :=
  memRead_memWrite_same a v h

theorem hostRead_hostWrite_ne (s : State) {a b : Word} (v : Word) (h : b ≠ a) :
    (s.hostWrite a v).hostRead b = s.hostRead b :=
  memRead_memWrite_ne s.mem v h

theorem hostWrite_wf {s : State} (a v : Word) (h : s.mem.wf = true) : (s.hostWrite a v).mem.wf = true :=
  wf_memWrite a v h

/-- Replacing the memory by one in canonical form keeps the invariant, whose other part is about the flags. -/
theorem setMem_inv {s : State} {m : Memory} (hm : m.wf = true) (h : s.inv = true) : (s.setMem m).inv = true := by
  obtain ⟨-, hflags⟩ := (State.inv_iff s).1 h
  exact (State.inv_iff _).2 ⟨hm, hflags⟩

theorem hostWrite_inv {s : State} (a v : Word) (h : s.inv = true) : (s.hostWrite a v).inv = true := by
  obtain ⟨hmem, -⟩ := (State.inv_iff s).1 h
  exact setMem_inv (wf_memWrite a v hmem) h

theorem hostLoad_cons (s : State) (origin w : Word) (ws : List Word) :
    s.hostLoad origin (w :: ws) = (s.hostWrite origin w).hostLoad (nextPc origin) ws := rfl

theorem hostLoad_inv {s : State} (origin : Word) (ws : List Word) (h : s.inv = true) :
    (s.hostLoad origin ws).inv = true := by
  induction ws generalizing s origin with
  | nil => exact h
  | cons w ws ih => exact ih _ (hostWrite_inv origin w h)

theorem processorResetWith_inv {s : State} (clearsMem : Bool) (h : s.inv = true) :
    (s.processorResetWith clearsMem).inv = true := by
  obtain ⟨hmem, -⟩ := (State.inv_iff s).1 h
  cases clearsMem with
  | true => exact resetSatisfiesInvariant
  | false => exact setMem_inv hmem resetSatisfiesInvariant

/-- Settles O32. -/
theorem hostActionsKeepInvariant : Obligations.HostActionsKeepInvariant :=
  fun _ h => ⟨fun a v => hostWrite_inv a v h, fun origin ws => hostLoad_inv origin ws h,
    fun clearsMem => processorResetWith_inv clearsMem h⟩

/-- The `k`-th cell from the next one is the `k + 1`-st from here, modulo 2^16. -/
theorem nextPc_add_ofNat (p : Word) (k : Nat) : nextPc p + BitVec.ofNat 16 k = p + BitVec.ofNat 16 (k + 1) := by
  rw [nextPc, BitVec.add_assoc, Nat.add_comm k 1, BitVec.ofNat_add]

/-- Fewer than 65536 cells on, a walk through the addresses has not come back to where it began. -/
theorem ne_add_ofNat_succ (p : Word) {k : Nat} (hk : k + 1 < 65536) : p ≠ p + BitVec.ofNat 16 (k + 1) := by
  bv_omega

/-- A load leaves every cell it does not come to. -/
theorem hostRead_hostLoad_outside {s : State} {origin a : Word} {ws : List Word}
    (ha : ∀ k, k < ws.length → a ≠ origin + BitVec.ofNat 16 k) : (s.hostLoad origin ws).hostRead a = s.hostRead a := by
  induction ws generalizing s origin with
  | nil => rfl
  | cons w ws ih =>
    have hfirst : a ≠ origin := by simpa using ha 0 (by simp)
    rw [hostLoad_cons, ih, hostRead_hostWrite_ne s w hfirst]
    intro k hk
    rw [nextPc_add_ofNat]
    exact ha (k + 1) (by simpa using hk)

/-- A load of no more words than there are cells leaves each word in its cell: no later word is written over it. -/
theorem hostRead_hostLoad_at {s : State} {origin : Word} {ws : List Word} (hm : s.mem.wf = true)
    (hlen : ws.length ≤ 65536) {k : Nat} (hk : k < ws.length) :
    (s.hostLoad origin ws).hostRead (origin + BitVec.ofNat 16 k) = ws[k] := by
  induction ws generalizing s origin k with
  | nil => exact absurd hk (Nat.not_lt_zero k)
  | cons w ws ih =>
    rw [List.length_cons] at hlen hk
    rw [hostLoad_cons]
    cases k with
    | zero =>
      have hkept : ((s.hostWrite origin w).hostLoad (nextPc origin) ws).hostRead origin =
          (s.hostWrite origin w).hostRead origin := by
        apply hostRead_hostLoad_outside
        intro j hj
        rw [nextPc_add_ofNat]
        exact ne_add_ofNat_succ origin (by omega)
      simpa [hkept] using hostRead_hostWrite_same origin w hm
    | succ k =>
      rw [← nextPc_add_ofNat]
      exact ih (hostWrite_wf origin w hm) (by omega) (by omega)

theorem hostLoad_agreeProcessor (s : State) (origin : Word) (ws : List Word) :
    (s.hostLoad origin ws).agreeProcessor s := by
  induction ws generalizing s origin with
  | nil => exact ⟨rfl, rfl, rfl, rfl, rfl⟩
  | cons w ws ih => exact ih (s.hostWrite origin w) (nextPc origin)

/-- Settles O50. -/
theorem hostLoadPlacesTheProgram : Obligations.HostLoadPlacesTheProgram :=
  fun s origin ws hm hlen => ⟨fun _ hk => hostRead_hostLoad_at hm hlen hk, fun _ ha => hostRead_hostLoad_outside ha,
    hostLoad_agreeProcessor s origin ws⟩

/-! ## The transactions of a step (O25, O26, O27) -/

theorem transactionsWith_running (m : OpMap) {s : State} (h : s.halted = false) :
    transactionsWith m s = .read s.pc :: (dataTransaction (nextInstr m s) s).toList := by
  simp [transactionsWith, h, nextInstr]

theorem dataTransaction_load (rd rs : Reg) (s : State) : dataTransaction (.load rd rs) s = some (.read (s.reg rs)) := rfl

theorem dataTransaction_store (rd rs : Reg) (s : State) :
    dataTransaction (.store rd rs) s = some (.write (s.reg rs) (s.reg rd)) := rfl

/-- Only LOAD and STORE make a data transaction (R46). -/
theorem dataTransaction_eq_none {i : Instr} (hload : ∀ rd rs, i ≠ .load rd rs) (hstore : ∀ rd rs, i ≠ .store rd rs)
    (s : State) : dataTransaction i s = none := by
  cases i with
  | load rd rs => exact absurd rfl (hload rd rs)
  | store rd rs => exact absurd rfl (hstore rd rs)
  | _ => rfl

/-- The data transaction of an instruction does to the memory what its effect does, the effect being applied to any state
with that memory: the two say STORE's write alike, and nothing else writes. -/
theorem foldl_dataTransaction_eq_apply_mem (i : Instr) (s u : State) :
    (dataTransaction i s).toList.foldl Transaction.apply u.mem = ((effectOf i s).apply u).mem := by
  cases i with
  | jz rs => cases hz : s.flags.z <;> simp [dataTransaction, effectOf, hz, Effect.apply]
  | _ => rfl

theorem foldl_transactionsWith (m : OpMap) {s : State} (h : s.halted = false) :
    (transactionsWith m s).foldl Transaction.apply s.mem = ((effectOf (nextInstr m s) s).apply s.fetch).mem := by
  rw [transactionsWith_running m h]
  exact foldl_dataTransaction_eq_apply_mem (nextInstr m s) s s.fetch

/-- A step makes at most two transactions and at most one write (R46): the fetch is no write, and there is at most one
data transaction. -/
theorem transactionsWith_bounds (m : OpMap) (s : State) :
    (transactionsWith m s).length ≤ 2 ∧ ((transactionsWith m s).filter Transaction.isWrite).length ≤ 1 := by
  cases hh : s.halted with
  | true => simp [transactionsWith_halted m hh]
  | false =>
    have hdata : (dataTransaction (nextInstr m s) s).toList.length ≤ 1 := by
      cases dataTransaction (nextInstr m s) s <;> simp
    rw [transactionsWith_running m hh]
    refine ⟨Nat.succ_le_succ hdata, ?_⟩
    rw [List.filter_cons_of_neg (by simp [Transaction.isWrite])]
    exact (List.length_filter_le _ _).trans hdata

/-- Settles O25. -/
theorem busTransactionsOfEveryStep : Obligations.BusTransactionsOfEveryStep := by
  intro m s
  obtain ⟨t, ht⟩ := stepWith_completes m s
  refine ⟨t, ht, transactionsWith_halted m, fun hh => ?_, ?_, transactionsWith_bounds m s⟩
  · rw [transactionsWith_running m hh]
    refine ⟨fun rd rs hi => ?_, fun rd rs hi => ?_, fun hload hstore => ?_⟩
    · rw [hi, dataTransaction_load, Option.toList_some]
    · rw [hi, dataTransaction_store, Option.toList_some]
    · rw [dataTransaction_eq_none hload hstore, Option.toList_none]
  · rcases stepWith_cases ht with ⟨hh, rfl⟩ | ⟨hh, rfl⟩
    · rw [transactionsWith_halted m hh, List.foldl_nil]
    · exact foldl_transactionsWith m hh

/-- In any transaction exactly one of `re` and `we` is 1, `wdata` is driven with `we` and `rdata` sampled with `re` (R47). -/
theorem Transaction.signals_rdata (tr : Transaction) (mem : Memory) :
    (tr.signals.re != tr.signals.we) = true ∧ tr.signals.wdata.isSome = tr.signals.we ∧
      (tr.rdata mem).isSome = tr.signals.re := by
  cases tr with
  | read addr => exact ⟨rfl, rfl, rfl⟩
  | write addr data => exact ⟨rfl, rfl, rfl⟩

/-- Settles O26. -/
theorem busSignalsOfEveryStep : Obligations.BusSignalsOfEveryStep := by
  intro m s hh
  rw [transactionsWith_running m hh]
  refine ⟨rfl, fun tr _ => tr.signals_rdata s.mem, ⟨rfl, rfl⟩, fun rd rs hi => ?_⟩
  rw [hi, dataTransaction_load]
  rfl

/-- Two states that agree on the processor state differ in their memory alone. -/
theorem State.agreeProcessor.exists_setMem {s t : State} (h : s.agreeProcessor t) : ∃ mem, t = s.setMem mem := by
  obtain ⟨hx, hpc, hf, hh, hi⟩ := h
  refine ⟨t.mem, state_ext _ _ (fun r => ?_) hpc.symm hf.symm hh.symm hi.symm rfl⟩
  simp [State.reg, hx]

theorem dataTransaction_setMem (i : Instr) (s : State) (mem : Memory) :
    dataTransaction i (s.setMem mem) = dataTransaction i s := by
  cases i <;> rfl

/-- The effect of an instruction depends on memory only through the cell of its data read, if it makes one. -/
theorem effectOf_setMem {i : Instr} {s : State} {mem : Memory}
    (h : ∀ a, dataTransaction i s = some (.read a) → memRead s.mem a = memRead mem a) :
    effectOf i (s.setMem mem) = effectOf i s := by
  cases i with
  | load rd rs => simp [effectOf, h _ (dataTransaction_load rd rs s)]
  | _ => rfl

/-- An effect keeps the agreement of two states on the processor state. -/
theorem Effect.apply_agreeProcessor (e : Effect) {s t : State} (h : s.agreeProcessor t) :
    (e.apply s).agreeProcessor (e.apply t) := by
  obtain ⟨hx, hpc, hf, hh, hi⟩ := h
  cases e <;> simp [apply, State.agreeProcessor, hx, hpc, hf, hh, hi]

/-- The fetch reads one cell, the one at `pc` (R81). -/
theorem fetch_setMem_agreeProcessor {s : State} {mem : Memory} (h : memRead s.mem s.pc = memRead mem s.pc) :
    s.fetch.agreeProcessor (s.setMem mem).fetch :=
  ⟨rfl, rfl, rfl, rfl, h⟩

/-- Settles O27: with the fetched word and the cell of the data read alike, the instruction and its effect are the same. -/
theorem stepReadsMemoryOnlyOnTheBus : Obligations.StepReadsMemoryOnlyOnTheBus := by
  intro m s₁ s₂ hagree hread
  obtain ⟨mem, rfl⟩ := hagree.exists_setMem
  cases hh : s₁.halted with
  | true =>
    refine ⟨s₁, s₁.setMem mem, stepWith_halted m hh, stepWith_halted m hh, hagree, ?_⟩
    rw [transactionsWith_halted m hh, transactionsWith_halted m (s := s₁.setMem mem) hh]
  | false =>
    rw [transactionsWith_running m hh] at hread
    have hfetch : memRead s₁.mem s₁.pc = memRead mem s₁.pc := hread s₁.pc (by simp)
    have hinstr : nextInstr m (s₁.setMem mem) = nextInstr m s₁ := congrArg (decodeWith m) hfetch.symm
    have heff : effectOf (nextInstr m s₁) (s₁.setMem mem) = effectOf (nextInstr m s₁) s₁ :=
      effectOf_setMem fun a ha => hread a (by simp [ha])
    refine ⟨_, _, stepWith_running_eq_apply m hh, stepWith_running_eq_apply m hh, ?_, ?_⟩
    · rw [hinstr, heff]
      exact Effect.apply_agreeProcessor _ (fetch_setMem_agreeProcessor hfetch)
    · rw [transactionsWith_running m hh, transactionsWith_running m (s := s₁.setMem mem) hh, hinstr,
        dataTransaction_setMem, setMem_pc]

/-! ## A store and what comes directly after it (O43, O44) -/

/-- The step of a STORE writes its cell and leaves the rest as the fetch left it (R81, R103). -/
theorem stepWith_store {m : OpMap} {s : State} {rd rs : Reg} (hh : s.halted = false)
    (hi : nextInstr m s = .store rd rs) :
    stepWith m s = .next (s.fetch.setMem (memWrite s.mem (s.reg rs) (s.reg rd))) := by
  rw [stepWith_running_eq_apply m hh, hi]
  rfl

/-- Settles O43. -/
theorem storeIsSeenByTheNextFetch : Obligations.StoreIsSeenByTheNextFetch := by
  intro m s rd rs hh hm hi
  have hcell : memRead (memWrite s.mem (s.reg rs) (s.reg rd)) (s.reg rs) = s.reg rd :=
    memRead_memWrite_same (s.reg rs) (s.reg rd) hm
  refine ⟨_, stepWith_store hh hi, rfl, hcell, fun hnext => ?_⟩
  have hword : memRead (memWrite s.mem (s.reg rs) (s.reg rd)) (nextPc s.pc) = s.reg rd := hnext ▸ hcell
  refine ⟨hword, ?_⟩
  rw [stepWith_running m (by simpa using hh), setMem_mem, setMem_pc, fetch_pc, hword]

/-- Settles O44: STORE leaves the address register, so LOAD reads the cell that was written. -/
theorem loadSeesThePrecedingStore : Obligations.LoadSeesThePrecedingStore := by
  intro rd rs rd' s hm
  refine ⟨_, _, exec_store s rd rs, exec_load _ rd' rs, ?_⟩
  rw [setMem_mem, setMem_reg, memRead_memWrite_same _ _ hm]
  exact ⟨by simp, flagsZN_flagsAre _ _ _ (by simp [carryCleared])⟩

end Sys2Proof.Machine

/-! SUPPORT. The codec as a pair of inverse maps. What decoding and encoding do to an instruction depends on its format
alone, so the encoder is said once per format (`encodeWith_instrOf`), and the bits of a word once per field
(`setWidth_extractLsb'_shiftLeft`). The encoding statements are settled from these. -/

namespace Sys2Proof

/-! ## Decoding inverts encoding (O34) -/

theorem mnemonic_instrOf (k : Mnemonic) (f : Fields) : (instrOf k f).mnemonic = k := by
  cases k <;> rfl

/-- The family `CanonicalOpcode` over all instructions: MOVI has the immediate form, the others the register form. -/
theorem op_encodeWith (m : OpMap) (i : Instr) : (fieldsOf (encodeWith m i)).op = m.codeOf i.mnemonic := by
  cases i with
  | movi rd imm => exact Laws.CanonicalOpcode.movi rd imm m
  | _ => exact (fieldsOf_wordOfRegs _ _ _).1

/-- The operands of an instruction are read back from its canonical word (R57, R60). -/
theorem instrOf_fieldsOf_encodeWith (m : OpMap) (i : Instr) :
    instrOf i.mnemonic (fieldsOf (encodeWith m i)) = i := by
  cases i with
  | movi rd imm =>
    obtain ⟨-, hrd, himm⟩ := fieldsOf_wordOfImm (m.codeOf .MOVI) rd imm
    simp only [Instr.mnemonic, encodeWith, instrOf, hrd, himm]
  | _ => simp only [Instr.mnemonic, encodeWith, instrOf, fieldsOf_wordOfRegs]

theorem decodeWith_encodeWith {m : OpMap} (hm : m.wellFormed = true) (i : Instr) :
    decodeWith m (encodeWith m i) = i := by
  rw [decodeWith, op_encodeWith, OpMap.select_codeOf hm, instrOf_fieldsOf_encodeWith]

/-- Settles O34. -/
theorem decodeInvertsEncode : Obligations.DecodeInvertsEncode :=
  fun _ hm i _ => decodeWith_encodeWith hm i

/-! ## Encoding inverts decoding on the used bits (O35) -/

/-- A field taken out of a word and put back in its place is the word with the other bits 0. -/
theorem setWidth_extractLsb'_shiftLeft (w : Word) (lo n : Nat) :
    (w.extractLsb' lo n).setWidth 16 <<< lo = w &&& ((BitVec.allOnes n).setWidth 16 <<< lo) := by
  ext i hi
  by_cases hlo : i < lo
  · simp [hlo]
  · have hsub : lo + (i - lo) = i := by omega
    have hlt : i - lo < 16 := by omega
    simp [hlo, hsub, hi, hlt, ← BitVec.getLsbD_eq_getElem, Bool.and_comm]

/-- The canonical word of an instruction of this format with this opcode and these fields, the unused fields 0 (R60). -/
def Format.canonicalWord (fmt : Format) (op : Opcode) (f : Fields) : Word :=
  match fmt with
  | .RR => wordOfRegs op f.rd f.rs
  | .RD => wordOfRegs op f.rd 0
  | .RS => wordOfRegs op 0 f.rs
  | .I => wordOfImm op f.rd f.imm9
  | .N => wordOfRegs op 0 0

theorem encodeWith_instrOf (m : OpMap) (k : Mnemonic) (f : Fields) :
    encodeWith m (instrOf k f) = k.format.canonicalWord (m.codeOf k) f := by
  cases k <;> rfl

theorem op_shiftLeft (w : Word) : (fieldsOf w).op.setWidth 16 <<< 12 = w &&& 0xF000#16 :=
  setWidth_extractLsb'_shiftLeft w 12 4

theorem rd_shiftLeft (w : Word) : (bitsOfReg (fieldsOf w).rd).setWidth 16 <<< 9 = w &&& 0x0E00#16 :=
  setWidth_extractLsb'_shiftLeft w 9 3

theorem rs_shiftLeft (w : Word) : (bitsOfReg (fieldsOf w).rs).setWidth 16 <<< 6 = w &&& 0x01C0#16 :=
  setWidth_extractLsb'_shiftLeft w 6 3

theorem imm9_setWidth (w : Word) : (fieldsOf w).imm9.setWidth 16 = w &&& 0x01FF#16 :=
  (BitVec.shiftLeft_zero _).symm.trans (setWidth_extractLsb'_shiftLeft w 0 9)

theorem zeroReg_shiftLeft (n : Nat) : (bitsOfReg 0).setWidth 16 <<< n = 0x0000#16 :=
  BitVec.zero_shiftLeft n

/-- The canonical word made from the fields of `w` has the bits of `w` that the format uses, and no others (R64). -/
theorem canonicalWord_fieldsOf (fmt : Format) (w : Word) :
    fmt.canonicalWord (fieldsOf w).op (fieldsOf w) = w &&& fmt.usedBits := by
  cases fmt <;>
    simp only [Format.canonicalWord, wordOfRegs, wordOfImm, op_shiftLeft, rd_shiftLeft, rs_shiftLeft, imm9_setWidth,
      zeroReg_shiftLeft, BitVec.or_zero, ← BitVec.and_or_distrib_left] <;> rfl

theorem encodeWith_decodeWith {m : OpMap} (hm : m.wellFormed = true) (w : Word) :
    encodeWith m (decodeWith m w) = w &&& usedBitsOf m w := by
  rw [decodeWith, encodeWith_instrOf, OpMap.codeOf_select hm, canonicalWord_fieldsOf, usedBitsOf]

/-- Settles O35. -/
theorem encodeInvertsDecodeOnUsedBits : Obligations.EncodeInvertsDecodeOnUsedBits :=
  fun _ hm w => encodeWith_decodeWith hm w

/-! ## Words that decode alike (O36) -/

theorem usedBitsOf_eq_of_decodeWith (m : OpMap) (w : Word) :
    usedBitsOf m w = (decodeWith m w).mnemonic.format.usedBits := by
  rw [decodeWith, mnemonic_instrOf, usedBitsOf]

/-- Every format uses the opcode field (R58). -/
theorem op_and_usedBits (fmt : Format) (w : Word) : (fieldsOf (w &&& fmt.usedBits)).op = (fieldsOf w).op := by
  have hop : fmt.usedBits.extractLsb' 12 4 = BitVec.allOnes 4 := by cases fmt <;> rfl
  calc (w &&& fmt.usedBits).extractLsb' 12 4
    _ = w.extractLsb' 12 4 &&& fmt.usedBits.extractLsb' 12 4 := BitVec.extractLsb'_and
    _ = w.extractLsb' 12 4 := by rw [hop, BitVec.and_allOnes]

theorem op_eq_of_usedBits_agree {fmt : Format} {w w' : Word} (h : w &&& fmt.usedBits = w' &&& fmt.usedBits) :
    (fieldsOf w').op = (fieldsOf w).op := by
  rw [← op_and_usedBits fmt w', ← h, op_and_usedBits]

/-- Words that agree on the bits the first one uses carry one opcode, so they use the same bits. -/
theorem usedBitsOf_eq_of_agree {m : OpMap} {w w' : Word} (h : w &&& usedBitsOf m w = w' &&& usedBitsOf m w) :
    usedBitsOf m w' = usedBitsOf m w := by
  rw [usedBitsOf, usedBitsOf, op_eq_of_usedBits_agree h]

theorem encodeWith_injective {m : OpMap} (hm : m.wellFormed = true) : Function.Injective (encodeWith m) :=
  Function.LeftInverse.injective (decodeWith_encodeWith hm)

/-- Settles O36: two words decode alike when the canonical words of what they decode to are one (O34, O35). -/
theorem wordsDecodeAlikeIffUsedBitsAgree : Obligations.WordsDecodeAlikeIffUsedBitsAgree := by
  intro m hm w w'
  constructor
  · intro h
    have hused : usedBitsOf m w' = usedBitsOf m w := by
      rw [usedBitsOf_eq_of_decodeWith, usedBitsOf_eq_of_decodeWith, h]
    rw [← encodeWith_decodeWith hm w, h, encodeWith_decodeWith hm w', hused]
  · intro h
    apply encodeWith_injective hm
    rw [encodeWith_decodeWith hm, encodeWith_decodeWith hm, usedBitsOf_eq_of_agree h, h]

/-! ## Raw operands (O38) -/

/-- The raw form of an instruction of this format with this mnemonic and these fields, the unused fields 0 (R75). -/
def Format.rawForm (fmt : Format) (k : Mnemonic) (f : Fields) : RawInstr :=
  match fmt with
  | .RR => ⟨k, f.rd, f.rs, 0⟩
  | .RD => ⟨k, f.rd, 0, 0⟩
  | .RS => ⟨k, 0, f.rs, 0⟩
  | .I => ⟨k, f.rd, 0, f.imm9.toNat⟩
  | .N => ⟨k, 0, 0, 0⟩

theorem raw_instrOf (k : Mnemonic) (f : Fields) : (instrOf k f).raw = k.format.rawForm k f := by
  cases k <;> rfl

/-- The numbers of a raw form as fields of a word; `rawForm_fields` says that nothing is lost when they are in range. -/
def RawInstr.fields (r : RawInstr) : Fields where
  op := 0
  rd := Fin.ofNat 8 r.rd
  rs := Fin.ofNat 8 r.rs
  imm9 := BitVec.ofNat 9 r.imm

theorem rawForm_fields {r : RawInstr} (h : r.wellFormed = true) :
    r.mnemonic.format.rawForm r.mnemonic r.fields = r := by
  obtain ⟨k, rd, rs, imm⟩ := r
  simp only [RawInstr.wellFormed] at h
  cases hk : k.format <;>
    simp only [hk, Bool.and_eq_true, decide_eq_true_eq, beq_iff_eq] at h <;>
    simp [Format.rawForm, RawInstr.fields, Nat.mod_eq_of_lt, h]

/-- Settles O38: the instruction is built from the numbers, and its operands are in range by type. -/
theorem inRangeOperandsAreExactlyInstructions : Obligations.InRangeOperandsAreExactlyInstructions := by
  intro r
  constructor
  · intro h
    exact ⟨instrOf r.mnemonic r.fields, (raw_instrOf ..).trans (rawForm_fields h)⟩
  · rintro ⟨i, rfl⟩
    exact Laws.instr_wellFormed i

/-! ## Opcode values without an instruction (O37) -/

theorem OpMap.mnemonicOf_eq_select {m : OpMap} (hm : m.wellFormed = true) (c : Opcode) :
    m.mnemonicOf c = some (m.select c) := by
  rw [← mnemonicOf_codeOf hm (m.select c), codeOf_select hm]

theorem OpMap.mnemonicOf_ne_none {m : OpMap} (hm : m.wellFormed = true) (c : Opcode) : m.mnemonicOf c ≠ none := by
  simp [mnemonicOf_eq_select hm c]

theorem OpMap.select_of_unmapped {m : OpMap} {c : Opcode} (h : m.mnemonicOf c = none) : m.select c = .NOP := by
  rw [select, h]

theorem decodeWith_of_unmapped {m : OpMap} {w : Word} (h : m.mnemonicOf (fieldsOf w).op = none) :
    decodeWith m w = .nop := by
  rw [decodeWith, OpMap.select_of_unmapped h, instrOf]

/-- Settles O37. -/
theorem unmappedOpcodeRunsAsNop : Obligations.UnmappedOpcodeRunsAsNop := by
  refine ⟨fun m s hh hop => ?_, fun _ hm => OpMap.mnemonicOf_ne_none hm,
    OpMap.mnemonicOf_ne_none defaultOpMap_wellFormed⟩
  have hstep : Machine.stepWith m s = Machine.exec .nop s.fetch := by
    rw [Machine.stepWith_running m hh, decodeWith_of_unmapped hop]
  exact ⟨hstep, hstep.trans (Machine.exec_nop s.fetch)⟩

/-! ## Words of table V1 (O39) -/

/-- Settles O39: thirteen evaluations of the codec on the words of the statement. -/
theorem defaultWordsDecode : Obligations.DefaultWordsDecode := by
  unfold Obligations.DefaultWordsDecode
  decide

end Sys2Proof

/-! SUPPORT. The step and the run as wholes: that they complete, the bounds of a step's effects, the common flag rule,
the agreement of the datapath with the instruction rules, and what `step()` and `run()` report. Each goes through the
effect of an instruction (`stepWith_cases`, `exec_eq_apply`) or through one equation per function of the model. -/

namespace Sys2Proof.Machine

/-! ## The phases of a step (O17, O19, O20, O53) -/

/-- Settles O17. -/
theorem stepFetchesAdvancesDecodesExecutes : Obligations.StepFetchesAdvancesDecodesExecutes := by
  refine ⟨fun _ => rfl, fun m s => ⟨stepWith_halted m, ?_⟩⟩
  rintro hh _ rfl
  exact stepWith_running m hh

/-- Settles O19: the step is a function, so the state it answers is the only one. -/
theorem everyStepCompletes : Obligations.EveryStepCompletes := by
  intro m s
  obtain ⟨t, ht⟩ := stepWith_completes m s
  refine ⟨⟨t, ht, fun u hu => ?_⟩, stepWith_halted m⟩
  exact Host.Outcome.next.inj (hu.symm.trans ht)

theorem step_completes (s : State) : Completes (step s) := stepWith_completes defaultOpMap s

theorem step_halted {s : State} (h : s.halted = true) : step s = .next s := stepWith_halted defaultOpMap h

/-- Settles O20, by induction on the number of steps. -/
theorem everyRunCompletes : Obligations.EveryRunCompletes := by
  intro k
  induction k with
  | zero => exact fun s => ⟨s, rfl⟩
  | succ k ih =>
    intro s
    obtain ⟨t, ht⟩ := step_completes s
    rw [core_run_succ k ht]
    exact ih t

/-- Settles O53, by induction on the number of steps. -/
theorem haltedIsTerminal : Obligations.HaltedIsTerminal := by
  intro k s hh
  induction k with
  | zero => rfl
  | succ k ih => rw [core_run_succ k (step_halted hh), ih]

/-! ## What an effect leaves unchanged (O24) -/

/-- The address an effect stores to, if any. -/
def Effect.storeTo : Effect → Option Word
  | .store addr _ => some addr
  | .nothing | .result _ _ _ | .jump _ | .halt => none

theorem storeTo_effectOf (i : Instr) (s : State) : (effectOf i s).storeTo = storeAddr i s := by
  cases i with
  | jz rs => cases hz : s.flags.z <;> simp [effectOf, hz, Effect.storeTo, storeAddr]
  | _ => rfl

theorem Effect.apply_reg_of_ne_dest {e : Effect} {r : Reg} (h : e.dest ≠ some r) (s : State) :
    (e.apply s).reg r = s.reg r := by
  cases e with
  | result rd v c =>
    have hne : r ≠ rd := fun heq => h (congrArg some heq.symm)
    simp [apply, hne]
  | _ => rfl

theorem Effect.apply_memRead_of_ne_storeTo {e : Effect} {a : Word} (h : e.storeTo ≠ some a) (s : State) :
    memRead (e.apply s).mem a = memRead s.mem a := by
  cases e with
  | store addr v => exact memRead_memWrite_ne s.mem v fun heq => h (congrArg some heq.symm)
  | _ => rfl

theorem Effect.apply_flags_of_no_dest {e : Effect} (h : e.dest = none) (s : State) : (e.apply s).flags = s.flags := by
  cases e with
  | result rd r c => cases h
  | _ => rfl

theorem Effect.apply_ir (e : Effect) (s : State) : (e.apply s).ir = s.ir := by
  cases e <;> rfl

/-- An effect that writes a register stores nothing: it is one of five kinds. -/
theorem Effect.storeTo_of_dest {e : Effect} (h : e.dest.isSome = true) : e.storeTo = none := by
  cases e with
  | store addr v => cases h
  | _ => rfl

theorem dest_effectOf_of_not_flagAffecting {i : Instr} (h : flagAffecting i = false) (s : State) :
    (effectOf i s).dest = none := by
  rw [flagAffecting_eq_isSome_destReg] at h
  rw [dest_effectOf, ← Option.not_isSome_iff_eq_none, h]
  exact Bool.false_ne_true

/-- The two instructions that make a data access, LOAD and STORE, do not load `pc`. -/
theorem target_effectOf_of_dataTransaction {i : Instr} {s : State} (h : (dataTransaction i s).isSome = true) :
    (effectOf i s).target = none := by
  apply target_effectOf_eq_none
  · rintro rs rfl
    cases h
  · rintro rs rfl
    cases h

/-- Settles O24: each bound of the step is a bound of the one effect it applies to the fetched state. -/
theorem stepEffectsAreBounded : Obligations.StepEffectsAreBounded := by
  intro m s hh
  have hpc : ∀ e : Effect, e.target = none → (e.apply s.fetch).pc = nextPc s.pc := by
    intro e he
    rw [Effect.apply_pc, he, Option.getD_none, fetch_pc]
  refine ⟨_, stepWith_running_eq_apply m hh, fun r hr => ?_, fun a ha => ?_, fun hf => ?_, ?_, fun hjump => ?_,
    (transactionsWith_bounds m s).1, ?_, fun hdata => hpc _ (target_effectOf_of_dataTransaction hdata)⟩
  · rw [← dest_effectOf _ s] at hr
    exact Effect.apply_reg_of_ne_dest hr s.fetch
  · rw [← storeTo_effectOf] at ha
    exact Effect.apply_memRead_of_ne_storeTo ha s.fetch
  · exact Effect.apply_flags_of_no_dest (dest_effectOf_of_not_flagAffecting hf s) s.fetch
  · exact Effect.apply_ir _ s.fetch
  · exact hpc _ (target_effectOf_eq_none (fun rs => (hjump rs).1) (fun rs => (hjump rs).2) s)
  · rintro ⟨hdest, hstore⟩
    rw [← dest_effectOf _ s] at hdest
    rw [← storeTo_effectOf, Effect.storeTo_of_dest hdest] at hstore
    cases hstore

/-! ## The common flag update (O23) -/

/-- The effect of an instruction with a destination register is a result write with the Carry of its row (R15, R86). -/
theorem effectOf_of_destReg {i : Instr} {rd : Reg} (h : destReg i = some rd) (s : State) :
    ∃ r, effectOf i s = .result rd r (carryAfter i s) := by
  cases i with
  | halt | nop | store _ _ | jmp _ | jz _ => cases h
  | _ =>
    obtain rfl := Option.some.inj h
    exact ⟨_, rfl⟩

/-- A result write leaves the flags of the value that now stands in the register (R86). -/
theorem writeResult_flagsAre (s : State) (rd : Reg) (r : Word) (c : Bool) :
    FlagsAre (s.writeResult rd r c).flags ((s.writeResult rd r c).reg rd) (c = true) := by
  rw [writeResult_flags, writeResult_reg, if_pos rfl]
  exact flagsZN_flagsAre r c _ Iff.rfl

/-- Settles O23. -/
theorem flagRuleForEveryInstruction : Obligations.FlagRuleForEveryInstruction := by
  intro i s
  refine ⟨_, exec_eq_apply i s, fun hf => ?_, fun hf => ?_⟩
  · rw [flagAffecting_eq_isSome_destReg] at hf
    obtain ⟨rd, hrd⟩ := Option.isSome_iff_exists.1 hf
    obtain ⟨r, heff⟩ := effectOf_of_destReg hrd s
    rw [heff, Effect.apply]
    refine ⟨rd, hrd, writeResult_flagsAre s rd r _, ?_⟩
    rw [writeResult_flags, ← Bool.and_eq_true, flagsZN_exclusive]
    exact Bool.false_ne_true
  · exact Effect.apply_flags_of_no_dest (dest_effectOf_of_not_flagAffecting hf s) s

/-! ## The ALU and the datapath (O33) -/

theorem alu_add (a b : Word) : alu .ADD a b = (BitVec.ofNat 16 (a.toNat + b.toNat), addCarry a b) := by
  rw [alu, sum17_low, sum17_carry]

theorem alu_sub (a b : Word) : alu .SUB a b = (BitVec.ofInt 16 (a.toNat - b.toNat), subNoBorrow a b) := by
  rw [alu, ofInt_toNat_sub, ule_eq_subNoBorrow]

theorem alu_not (a b : Word) : alu .NOT_B a b = (~~~b, carryCleared) :=
  congrArg (·, false) (BitVec.allOnes_sub_eq_not b)

theorem alu_shl (a b : Word) : alu .SHL1 a b = (a <<< 1, shlCarry a) := by
  have hlow : a <<< 1 = a.extractLsb' 0 15 ++ 0#1 := BitVec.shiftLeft_eq_concat_of_lt (by decide)
  exact congrArg (·, shlCarry a) hlow.symm

theorem alu_shr (a b : Word) : alu .SHR1 a b = (a >>> 1, shrCarry a) := by
  have hhigh : a >>> 1 = 0#1 ++ a.extractLsb' 1 15 := BitVec.ushiftRight_eq_extractLsb'_of_lt (by decide)
  exact congrArg (·, shrCarry a) hhigh.symm

/-- On a row that writes a register, the instruction's effect is to write there what the ALU puts out (R87, R88). -/
theorem effectOf_instrOf_of_regWrite {k : Mnemonic} (h : (controls k).regWrite = true) (f : Fields) (s : State) :
    effectOf (instrOf k f) s =
      .result f.rd (aluOutput (controls k) f s).1 (aluOutput (controls k) f s).2 := by
  cases k with
  | HALT | STORE | JMP | JZ | NOP => cases h
  | MOVI | MOV | LOAD | AND | OR | XOR => rfl
  | ADD | SUB | NOT | SHL | SHR =>
    simp [aluOutput, controls, alu_add, alu_sub, alu_not, alu_shl, alu_shr, aInput, bInput, instrOf, effectOf]

/-- A row that writes a register writes the flags too and does nothing else (R88, R89). -/
theorem datapath_of_regWrite {k : Mnemonic} (h : (controls k).regWrite = true) (f : Fields) (s : State) :
    datapath (controls k) f s =
      s.writeResult f.rd (aluOutput (controls k) f s).1 (aluOutput (controls k) f s).2 := by
  have hhalted : (s.halted || false) = s.halted := Bool.or_false _
  cases k with
  | HALT | STORE | JMP | JZ | NOP => cases h
  | _ => exact congrArg (fun b => { s.writeResult f.rd _ _ with halted := b }) hhalted

/-- The control outputs of a mnemonic drive the datapath to the state its instruction's effect leaves (R88). -/
theorem datapath_controls (k : Mnemonic) (f : Fields) (s : State) :
    datapath (controls k) f s = (effectOf (instrOf k f) s).apply s := by
  cases hwrite : (controls k).regWrite with
  | true => rw [datapath_of_regWrite hwrite, effectOf_instrOf_of_regWrite hwrite, Effect.apply]
  | false =>
    cases k with
    | HALT | STORE | JMP | NOP =>
      simp [datapath, controls, loadsPc, instrOf, effectOf, Effect.apply, State.setHalted, State.setMem, State.setPc]
    | JZ =>
      cases hz : s.flags.z <;>
        simp [datapath, controls, loadsPc, instrOf, effectOf, hz, Effect.apply, State.setPc]
    | _ => cases hwrite

/-- Settles O33: both descriptions decode the same fetched word. -/
theorem datapathImplementsStep : Obligations.DatapathImplementsStep := by
  intro m s
  cases hh : s.halted with
  | true => rw [stepWith_halted m hh, datapathStep, if_pos hh]
  | false =>
    rw [stepWith_running m hh, exec_eq_apply, datapathStep, if_neg (by simp [hh]), datapath_controls]
    rfl

/-! ## The status `step()` reports (O18, O52) -/

theorem hostStep_of_next {s t : State} (h : step s = .next t) : hostStep s = (t, t.running) := by
  rw [hostStep, h]

/-- Settles O18. -/
theorem haltedStepDoesNoWork : Obligations.HaltedStepDoesNoWork := by
  intro m s hh
  refine ⟨stepWith_halted m hh, transactionsWith_halted m hh, ?_⟩
  rw [hostStep_of_next (step_halted hh), State.running, hh, Bool.not_true]

/-- After a step the machine runs exactly if it ran before and the instruction was not HALT (R16). -/
theorem stepWith_running_iff {m : OpMap} {s t : State} (h : stepWith m s = .next t) :
    t.running = true ↔ s.halted = false ∧ nextInstr m s ≠ .halt := by
  rw [State.running, Bool.not_eq_true', ← Bool.not_eq_true]
  rcases stepWith_cases h with ⟨hh, rfl⟩ | ⟨hh, rfl⟩
  · simp [hh]
  · rw [Effect.apply_halted, effectOf_eq_halt_iff]
    simp [hh]

/-- Settles O52. -/
theorem stepReportsRunning : Obligations.StepReportsRunning := by
  intro s
  obtain ⟨t, ht⟩ := step_completes s
  have hreport : hostStep s = (t, t.running) := hostStep_of_next ht
  refine ⟨t, ht, hreport, ?_⟩
  rw [hreport]
  exact stepWith_running_iff ht

/-! ## `run()` (O54) -/

/-- The run from `s` is halted in `t` after `n` steps and at no earlier time. -/
def FirstHaltedAfter (n : Nat) (s t : State) : Prop :=
  Sys2Proof.core.run n s = .next t ∧ t.halted = true ∧
    ∀ k, k < n → ∃ u, Sys2Proof.core.run k s = .next u ∧ u.halted = false

theorem firstHaltedAfter_zero_iff (s t : State) : FirstHaltedAfter 0 s t ↔ s = t ∧ s.halted = true := by
  constructor
  · rintro ⟨hrun, hhalted, -⟩
    obtain rfl : s = t := Host.Outcome.next.inj hrun
    exact ⟨rfl, hhalted⟩
  · rintro ⟨rfl, hhalted⟩
    exact ⟨rfl, hhalted, fun k hk => absurd hk (Nat.not_lt_zero k)⟩

/-- Time `n + 1` of a run is time `n` of the run from its second state. -/
theorem firstHaltedAfter_succ_iff {s s' : State} (h : step s = .next s') (n : Nat) (t : State) :
    FirstHaltedAfter (n + 1) s t ↔ s.halted = false ∧ FirstHaltedAfter n s' t := by
  have hfirst : (∃ u, Sys2Proof.core.run 0 s = .next u ∧ u.halted = false) ↔ s.halted = false := by
    constructor
    · rintro ⟨u, hu, hrunning⟩
      obtain rfl : s = u := Host.Outcome.next.inj hu
      exact hrunning
    · exact fun hrunning => ⟨s, rfl, hrunning⟩
  simp only [FirstHaltedAfter, core_run_succ _ h, Nat.forall_lt_succ_left, hfirst]
  tauto

/-- A halted machine is first halted after 0 steps, in its own state. -/
theorem firstHaltedAfter_of_halted {s : State} (h : s.halted = true) (n : Nat) (t : State) :
    FirstHaltedAfter n s t ↔ s = t ∧ n = 0 := by
  cases n with
  | zero => simp [firstHaltedAfter_zero_iff, h]
  | succ n => simp [firstHaltedAfter_succ_iff (step_halted h), h]

theorem hostRun_halted (fuel : Nat) {s : State} (h : s.halted = true) : hostRun fuel s = some (s, 0) := by
  cases fuel <;> simp [hostRun, h]

theorem hostRun_zero_running {s : State} (h : s.halted = false) : hostRun 0 s = none := by
  simp [hostRun, h]

theorem hostRun_succ_running (fuel : Nat) {s s' : State} (h : s.halted = false) (hstep : step s = .next s') :
    hostRun (fuel + 1) s = (hostRun fuel s').map fun p => (p.1, p.2 + 1) := by
  rw [hostRun, if_neg (by simp [h]), hostStep_of_next hstep]
  cases hostRun fuel s' <;> rfl

theorem hostRun_eq_some_iff_of_halted (fuel : Nat) {s : State} (h : s.halted = true) (t : State) (n : Nat) :
    hostRun fuel s = some (t, n) ↔ n ≤ fuel ∧ FirstHaltedAfter n s t := by
  rw [hostRun_halted fuel h, firstHaltedAfter_of_halted h, Option.some.injEq, Prod.mk.injEq]
  constructor
  · rintro ⟨rfl, rfl⟩
    exact ⟨Nat.zero_le fuel, rfl, rfl⟩
  · rintro ⟨-, rfl, rfl⟩
    exact ⟨rfl, rfl⟩

/-- Within its fuel `run()` reports the first halted state and the time of it, by induction on the fuel. -/
theorem hostRun_eq_some_iff (fuel : Nat) (s t : State) (n : Nat) :
    hostRun fuel s = some (t, n) ↔ n ≤ fuel ∧ FirstHaltedAfter n s t := by
  induction fuel generalizing s n with
  | zero =>
    cases hh : s.halted with
    | true => exact hostRun_eq_some_iff_of_halted 0 hh t n
    | false =>
      rw [hostRun_zero_running hh, Nat.le_zero]
      constructor
      · intro h
        cases h
      · rintro ⟨rfl, hfirst⟩
        simp [firstHaltedAfter_zero_iff, hh] at hfirst
  | succ fuel ih =>
    cases hh : s.halted with
    | true => exact hostRun_eq_some_iff_of_halted (fuel + 1) hh t n
    | false =>
      obtain ⟨s', hstep⟩ := step_completes s
      rw [hostRun_succ_running fuel hh hstep]
      cases n with
      | zero => simp [firstHaltedAfter_zero_iff, hh]
      | succ n => simp [firstHaltedAfter_succ_iff hstep, hh, ← ih]

/-- Settles O54. -/
theorem runStopsAtTheFirstHaltedState : Obligations.RunStopsAtTheFirstHaltedState := by
  intro fuel s t n
  exact hostRun_eq_some_iff fuel s t n

end Sys2Proof.Machine

/-! SUPPORT. The data movement instructions. MOVI, MOV and LOAD end in one result write with Carry cleared and differ in
the value written; `writeResult_spec` says what such a write does. STORE is one bus write. -/

namespace Sys2Proof.Machine

/-- All a result write does: the register, the flags of the result, and the frame (R86, R89). -/
theorem writeResult_spec (s : State) (rd : Reg) (r : Word) {c : Bool} {p : Prop} (h : c = true ↔ p) :
    (s.writeResult rd r c).reg rd = r ∧ FlagsAre (s.writeResult rd r c).flags r p ∧
      KeepsAllButResult rd s (s.writeResult rd r c) :=
  ⟨(writeResult_reg s rd rd r c).trans (if_pos rfl), flagsZN_flagsAre r c p h, writeResult_frame s rd r c⟩

/-- Carry is cleared (R15). -/
theorem carryCleared_iff : carryCleared = true ↔ False := ⟨Bool.false_ne_true, False.elim⟩

/-! ## Load immediate (O1) -/

/-- Zero extension keeps the unsigned value (R59). -/
theorem immValue_toNat (imm : Imm9) : (immValue imm).toNat = imm.toNat :=
  BitVec.toNat_setWidth_of_le (by decide)

/-- A zero-extended immediate is below 512, so its bit 15 is clear. -/
theorem not_negative_immValue (imm : Imm9) : ¬ (immValue imm).toNat ≥ 0x8000 := by
  have hlt : imm.toNat < 512 := imm.isLt
  rw [immValue_toNat]
  omega

/-- Settles O1: the flags of a result write, where the result is too small to be negative. -/
theorem moviLoadsZeroExtendedImmediate : Obligations.MoviLoadsZeroExtendedImmediate := by
  refine ⟨selectedBy_instrOf fun _ => rfl, fun rd imm s => ⟨_, exec_movi s rd imm, ?_⟩⟩
  obtain ⟨hreg, ⟨hz, hc, hn⟩, hframe⟩ := writeResult_spec s rd (immValue imm) carryCleared_iff
  rw [immValue_toNat] at hz
  exact ⟨(congrArg BitVec.toNat hreg).trans (immValue_toNat imm), hz,
    Bool.eq_false_iff.2 fun h => not_negative_immValue imm (hn.1 h), Bool.eq_false_iff.2 hc.1, hframe⟩

/-! ## Register copy and load (O2, O3) -/

/-- Settles O2: the result is read from the state before the write, so `rd = rs` is no special case. -/
theorem movCopiesRegister : Obligations.MovCopiesRegister :=
  ⟨selectedBy_instrOf fun _ => rfl, fun rd rs s =>
    ⟨_, exec_mov s rd rs, writeResult_spec s rd (s.reg rs) carryCleared_iff⟩⟩

/-- Settles O3: address and cell are read from the state before the write. -/
theorem loadReadsAddressedCell : Obligations.LoadReadsAddressedCell :=
  ⟨selectedBy_instrOf fun _ => rfl, fun rd rs s =>
    ⟨_, exec_load s rd rs, writeResult_spec s rd (memRead s.mem (s.reg rs)) carryCleared_iff⟩⟩

/-! ## Store (O4) -/

/-- Settles O4: the two reads of memory after the bus write, at its cell and at another; no other field is written. -/
theorem storeWritesAddressedCell : Obligations.StoreWritesAddressedCell := by
  refine ⟨selectedBy_instrOf fun _ => rfl, fun rd rs s =>
    ⟨_, exec_store s rd rs, fun hwf => ?_, fun a ha => ?_, fun r => setMem_reg s _ r, rfl, rfl, rfl, rfl⟩⟩
  · exact memRead_memWrite_same (s.reg rs) (s.reg rd) hwf
  · exact memRead_memWrite_ne s.mem (s.reg rd) ha

end Sys2Proof.Machine

/-! SUPPORT. ADD and SUB (spec/42_arithmetic.md). Each is one result write over the integers (R105, R106); the
identities of R108 follow from these two rules alone, so their proofs look at no execute body. -/

namespace Sys2Proof.Machine

/-! ## ADD and SUB over the integers (O5, O6) -/

theorem addCarry_iff (a b : Word) : addCarry a b = true ↔ a.toNat + b.toNat > 0xFFFF := decide_eq_true_iff

theorem subNoBorrow_iff (a b : Word) : subNoBorrow a b = true ↔ a.toNat ≥ b.toNat := decide_eq_true_iff

/-- Narrowing an integer to a word reduces it modulo 2^16 (R107). -/
theorem ofInt_toNat_emod (i : Int) : ((BitVec.ofInt 16 i).toNat : Int) = i % 65536 := by
  rw [BitVec.toNat_ofInt]
  exact Int.toNat_of_nonneg (Int.emod_nonneg i (by decide))

/-- Settles O5: one result write of the narrowed sum. -/
theorem addWrapsAndCarries : Obligations.AddWrapsAndCarries := by
  refine ⟨selectedBy_instrOf fun _ => rfl, fun rd rs s => ⟨_, exec_add s rd rs, ?_⟩⟩
  obtain ⟨hreg, hflags, hframe⟩ := writeResult_spec s rd
    (BitVec.ofNat 16 ((s.reg rd).toNat + (s.reg rs).toNat)) (addCarry_iff (s.reg rd) (s.reg rs))
  rw [hreg]
  exact ⟨BitVec.toNat_ofNat _ 16, hflags, hframe⟩

/-- Settles O6: one result write of the narrowed difference. -/
theorem subWrapsAndReportsNoBorrow : Obligations.SubWrapsAndReportsNoBorrow := by
  refine ⟨selectedBy_instrOf fun _ => rfl, fun rd rs s => ⟨_, exec_sub s rd rs, ?_⟩⟩
  obtain ⟨hreg, hflags, hframe⟩ := writeResult_spec s rd
    (BitVec.ofInt 16 ((s.reg rd).toNat - (s.reg rs).toNat)) (subNoBorrow_iff (s.reg rd) (s.reg rs))
  rw [hreg]
  exact ⟨ofInt_toNat_emod _, hflags, hframe⟩

/-! ## The identities of R108 (O45) -/

/-- R108(a): the wrapped sum and the Carry are the two digits, to base 2^16, of the integer sum. -/
theorem wrappedSum_add_carry {a b r : Word} {c : Bool} (hr : r.toNat = (a.toNat + b.toNat) % 65536)
    (hc : c = true ↔ a.toNat + b.toNat > 0xFFFF) : r.toNat + 65536 * c.toNat = a.toNat + b.toNat := by
  have ha := a.isLt
  have hb := b.isLt
  cases c with
  | false =>
    have hle := mt hc.2 Bool.false_ne_true
    simp only [Bool.toNat_false]
    omega
  | true =>
    have hgt := hc.1 rfl
    simp only [Bool.toNat_true]
    omega

/-- R108(b): the wrapped difference is the integer difference, 2^16 added exactly when a borrow occurred. -/
theorem wrappedDifference_eq_add_borrow {a b r : Word} {c : Bool}
    (hr : (r.toNat : Int) = ((a.toNat : Int) - (b.toNat : Int)) % 65536) (hc : c = true ↔ a.toNat ≥ b.toNat) :
    (r.toNat : Int) = (a.toNat : Int) - (b.toNat : Int) + 65536 * (1 - (c.toNat : Int)) := by
  have ha := a.isLt
  have hb := b.isLt
  cases c with
  | false =>
    have hlt := mt hc.2 Bool.false_ne_true
    simp only [Bool.toNat_false]
    omega
  | true =>
    have hge := hc.1 rfl
    simp only [Bool.toNat_true]
    omega

/-- The complement of a word falls short of 2^16 minus the word by 1: adding it and 1 subtracts the word. -/
theorem toNat_add_not_add_one (a b : Word) : a.toNat + (~~~b).toNat + 1 = a.toNat + (65536 - b.toNat) := by
  have hb := b.isLt
  rw [BitVec.toNat_not]
  omega

/-- R108(b): the wrapped difference as a two's complement addition. -/
theorem wrappedDifference_eq_add_not {a b r : Word}
    (hr : (r.toNat : Int) = ((a.toNat : Int) - (b.toNat : Int)) % 65536) :
    r.toNat = (a.toNat + (~~~b).toNat + 1) % 65536 := by
  have hb := b.isLt
  rw [toNat_add_not_add_one]
  omega

/-- R108(b): no borrow occurs exactly when the two's complement addition carries out. -/
theorem noBorrow_iff_add_not_carries (a b : Word) :
    a.toNat ≥ b.toNat ↔ a.toNat + (~~~b).toNat + 1 ≥ 65536 := by
  have hb := b.isLt
  rw [toNat_add_not_add_one]
  omega

/-- R108(c): subtracting what was added restores a word, wrapped or not. -/
theorem wrappedDifference_of_wrappedSum {a b r d : Word} (hr : r.toNat = (a.toNat + b.toNat) % 65536)
    (hd : (d.toNat : Int) = ((r.toNat : Int) - (b.toNat : Int)) % 65536) : d = a := by
  have ha := a.isLt
  apply BitVec.eq_of_toNat_eq
  omega

/-- Settles O45, from the rules of ADD (O5) and SUB (O6). The round trip needs `rd ≠ rs` so that the frame of ADD
leaves the subtrahend alone. -/
theorem addSubIdentities : Obligations.AddSubIdentities := by
  intro rd rs s
  obtain ⟨t, hadd, hsum, ⟨_, hcarry, _⟩, hframe, _⟩ := addWrapsAndCarries.2 rd rs s
  obtain ⟨u, hsub, hdiff, ⟨_, hnoBorrow, _⟩, _⟩ := subWrapsAndReportsNoBorrow.2 rd rs s
  refine ⟨t, u, hadd, hsub, wrappedSum_add_carry hsum hcarry, wrappedDifference_eq_add_borrow hdiff hnoBorrow,
    wrappedDifference_eq_add_not hdiff, hnoBorrow.trans (noBorrow_iff_add_not_carries _ _), fun hne => ?_⟩
  obtain ⟨v, hback, hrestored, _⟩ := subWrapsAndReportsNoBorrow.2 rd rs t
  rw [hframe rs hne.symm] at hrestored
  exact ⟨v, hback, wrappedDifference_of_wrappedSum hsum hrestored⟩

end Sys2Proof.Machine

/-! SUPPORT. The logic instructions (spec/43_logic.md). Each is one result write with Carry cleared; the four differ in
what the written word is bit by bit (AND, OR, XOR) or as an unsigned value (NOT). -/

namespace Sys2Proof.Machine

/-- An instruction whose execute body is one result write answers a state that holds the result, with its flags and the
frame (R86, R89). Result and carry come from the state before the write, so `rd = rs` is no special case. -/
theorem exec_spec_of_writeResult {i : Instr} {s : State} {rd : Reg} {r : Word} {c : Bool} {p : Prop}
    (hexec : exec i s = .next (s.writeResult rd r c)) (hc : c = true ↔ p) :
    ∃ t, exec i s = .next t ∧ t.reg rd = r ∧ FlagsAre t.flags (t.reg rd) p ∧ KeepsAllButResult rd s t := by
  obtain ⟨hreg, hflags, hframe⟩ := writeResult_spec s rd r hc
  exact ⟨_, hexec, hreg, hreg.symm ▸ hflags, hframe⟩

/-! ## Conjunction, disjunction and exclusive or (O7, O8, O9) -/

/-- Settles O7: a bit of the conjunction is the conjunction of the bits. -/
theorem andIsBitwise : Obligations.AndIsBitwise := by
  refine ⟨selectedBy_instrOf fun _ => rfl, fun rd rs s => ?_⟩
  obtain ⟨t, hexec, hreg, hflags, hframe⟩ := exec_spec_of_writeResult (exec_and s rd rs) carryCleared_iff
  refine ⟨t, hexec, fun k _ => ?_, hflags, hframe⟩
  rw [hreg, BitVec.getLsbD_and, Bool.and_eq_true]

/-- Settles O8: a bit of the disjunction is the disjunction of the bits. -/
theorem orIsBitwise : Obligations.OrIsBitwise := by
  refine ⟨selectedBy_instrOf fun _ => rfl, fun rd rs s => ?_⟩
  obtain ⟨t, hexec, hreg, hflags, hframe⟩ := exec_spec_of_writeResult (exec_or s rd rs) carryCleared_iff
  refine ⟨t, hexec, fun k _ => ?_, hflags, hframe⟩
  rw [hreg, BitVec.getLsbD_or, Bool.or_eq_true]

/-- Settles O9: a bit of the exclusive or is set iff the bits differ. -/
theorem xorIsBitwise : Obligations.XorIsBitwise := by
  refine ⟨selectedBy_instrOf fun _ => rfl, fun rd rs s => ?_⟩
  obtain ⟨t, hexec, hreg, hflags, hframe⟩ := exec_spec_of_writeResult (exec_xor s rd rs) carryCleared_iff
  refine ⟨t, hexec, fun k _ => ?_, hflags, hframe⟩
  rw [hreg, BitVec.getLsbD_xor]
  exact bne_iff_ne

/-! ## Complement (O10) -/

/-- Settles O10: a word and its complement add up to 0xFFFF. -/
theorem notComplementsSource : Obligations.NotComplementsSource := by
  refine ⟨selectedBy_instrOf fun _ => rfl, fun rd rs s => ?_⟩
  obtain ⟨t, hexec, hreg, hflags, hframe⟩ := exec_spec_of_writeResult (exec_not s rd rs) carryCleared_iff
  refine ⟨t, hexec, ?_, hflags, hframe⟩
  rw [hreg]
  exact BitVec.toNat_not

end Sys2Proof.Machine

/-! SUPPORT. SHL and SHR (spec/44_shift.md). Each is one result write of the shifted word. The round trips of R117 come
down to one fact on words: clearing a bit leaves a word as it was exactly when that bit was clear already. -/

namespace Sys2Proof.Machine

/-! ## The shift by one over the natural numbers (O11, O12) -/

/-- SHL doubles, modulo 2^16 (R115). -/
theorem shl_toNat (a : Word) : (a <<< 1).toNat = (2 * a.toNat) % 65536 := by
  rw [BitVec.toNat_shiftLeft, Nat.shiftLeft_eq, pow_one, Nat.mul_comm]

/-- SHR halves (R116). -/
theorem shr_toNat (a : Word) : (a >>> 1).toNat = a.toNat / 2 := by
  rw [BitVec.toNat_ushiftRight, Nat.shiftRight_eq_div_pow, pow_one]

/-- Bit 15 of a word shifted right is 0 (R116). -/
theorem not_negative_shr (a : Word) : ¬ (a >>> 1).toNat ≥ 0x8000 := by
  have hlt := a.isLt
  rw [shr_toNat]
  omega

/-- Settles O11: one result write of the doubled word. -/
theorem shlShiftsLeftByOne : Obligations.ShlShiftsLeftByOne := by
  refine ⟨selectedBy_instrOf fun _ => rfl, fun rd s => ?_⟩
  obtain ⟨t, hexec, hreg, hflags, hframe⟩ := exec_spec_of_writeResult (exec_shl s rd) Iff.rfl
  exact ⟨t, hexec, (congrArg BitVec.toNat hreg).trans (shl_toNat _), hflags, hframe⟩

/-- Settles O12: one result write of the halved word, which is too small to be negative. -/
theorem shrShiftsRightLogically : Obligations.ShrShiftsRightLogically := by
  refine ⟨selectedBy_instrOf fun _ => rfl, fun rd s => ?_⟩
  obtain ⟨t, hexec, hreg, hflags, hframe⟩ := exec_spec_of_writeResult (exec_shr s rd) Iff.rfl
  have ⟨_, _, hn⟩ := hflags
  rw [hreg] at hn
  exact ⟨t, hexec, (congrArg BitVec.toNat hreg).trans (shr_toNat _),
    Bool.eq_false_iff.2 fun h => not_negative_shr _ (hn.1 h), hflags, hframe⟩

/-! ## SHL as an addition (O47) -/

/-- The shifted word is the narrowed sum of the word and itself (R105, R115). -/
theorem shl_eq_ofNat_add_self (a : Word) : a <<< 1 = BitVec.ofNat 16 (a.toNat + a.toNat) := by
  apply BitVec.eq_of_toNat_eq
  rw [shl_toNat, BitVec.toNat_ofNat, Nat.two_mul]

/-- Bit 15 of a word is set exactly when twice the word does not fit in 16 bits (R105, R115). -/
theorem shlCarry_eq_addCarry_self (a : Word) : shlCarry a = addCarry a a := by
  have hbit : shlCarry a = true ↔ 2 * a.toNat ≥ 2 ^ 16 := by
    rw [← BitVec.msb_eq_true_iff_two_mul_ge, BitVec.msb_eq_getLsbD_last]
    rfl
  rw [Bool.eq_iff_iff, hbit, addCarry_iff]
  omega

/-- Settles O47: both write the same result with the same Carry. -/
theorem shlEqualsAddToItself : Obligations.ShlEqualsAddToItself := by
  refine fun rd s => ⟨⟨_, exec_shl s rd⟩, ?_⟩
  rw [exec_shl, exec_add, shl_eq_ofNat_add_self, shlCarry_eq_addCarry_self]

/-! ## The round trips (O46) -/

/-- Clearing bit `k` restores a word exactly when the bit was clear. -/
theorem and_not_twoPow_eq_self_iff {w k : Nat} (a : BitVec w) :
    a &&& ~~~BitVec.twoPow w k = a ↔ a.getLsbD k = false := by
  constructor
  · intro h
    rw [← h]
    simp
  · intro h
    apply BitVec.eq_of_getLsbD_eq
    intro i hi
    by_cases hik : i = k
    · simp [hik, h]
    · simp [hik, hi]

/-- R117: SHL then SHR clears bit 15, the bit SHL shifts out. -/
theorem shl_shr_eq_clearBit (a : Word) : a <<< 1 >>> 1 = a &&& ~~~BitVec.twoPow 16 15 := by
  apply BitVec.eq_of_getLsbD_eq
  intro i hi
  have hlow : i + 1 < 16 ↔ ¬ i = 15 := by omega
  simp [hi, hlow, Bool.and_comm, Nat.add_comm 1 i]

/-- R117: SHR then SHL clears bit 0, the bit SHR shifts out. -/
theorem shr_shl_eq_clearBit (a : Word) : a >>> 1 <<< 1 = a &&& ~~~BitVec.twoPow 16 0 :=
  BitVec.shiftLeft_ushiftRight

/-- Settles O46: the second shift acts on the result of the first, and the lost bit is the Carry of the first. The masks
0x7FFF and 0xFFFE are the complements of bit 15 and bit 0. -/
theorem shiftRoundTrips : Obligations.ShiftRoundTrips := by
  intro rd s
  obtain ⟨l, hl, hlreg, ⟨_, hlcarry, _⟩, _⟩ := exec_spec_of_writeResult (exec_shl s rd) Iff.rfl
  obtain ⟨lr, hlr, hlrreg, _⟩ := exec_spec_of_writeResult (exec_shr l rd) Iff.rfl
  obtain ⟨r, hr, hrreg, ⟨_, hrcarry, _⟩, _⟩ := exec_spec_of_writeResult (exec_shr s rd) Iff.rfl
  obtain ⟨rl, hrl, hrlreg, _⟩ := exec_spec_of_writeResult (exec_shl r rd) Iff.rfl
  rw [hlreg, shl_shr_eq_clearBit] at hlrreg
  rw [hrreg, shr_shl_eq_clearBit] at hrlreg
  refine ⟨l, lr, r, rl, hl, hlr, hr, hrl, hlrreg, hrlreg, ?_, ?_⟩
  · rw [hlrreg, and_not_twoPow_eq_self_iff, Bool.eq_iff_iff.2 hlcarry]
    rfl
  · rw [hrlreg, and_not_twoPow_eq_self_iff, Bool.eq_iff_iff.2 hrcarry]
    rfl

end Sys2Proof.Machine

/-! SUPPORT. JMP, JZ, HALT and NOP (spec/45_control_system.md). JMP and JZ are one write of `pc`, HALT is one write of the
halted indicator and NOP writes nothing; a step of HALT or NOP does the same to the fetched state. -/

namespace Sys2Proof.Machine

/-! ## Jumps (O13, O14) -/

/-- A write of `pc` leaves every other part of the state (R120, R121). -/
theorem setPc_frame (s : State) (target : Word) :
    KeepsRegs s (s.setPc target) ∧ (s.setPc target).flags = s.flags ∧ (s.setPc target).halted = s.halted ∧
      (s.setPc target).ir = s.ir ∧ KeepsMemory s (s.setPc target) :=
  ⟨setPc_reg s target, setPc_flags s target, setPc_halted s target, setPc_ir s target, fun _ => rfl⟩

/-- Settles O13: one write of `pc`. -/
theorem jmpLoadsPc : Obligations.JmpLoadsPc :=
  ⟨selectedBy_instrOf fun _ => rfl, fun rs s => ⟨_, exec_jmp s rs, setPc_pc s (s.reg rs), setPc_frame s (s.reg rs)⟩⟩

/-- Settles O14: taken or not, JZ is one write of `pc`, and Zero chooses between the target and the value it has. -/
theorem jzJumpsExactlyOnZero : Obligations.JzJumpsExactlyOnZero := by
  refine ⟨selectedBy_instrOf fun _ => rfl, fun rs s =>
    ⟨_, exec_jz_setPc s rs, fun hz => ?_, fun hz => ?_, setPc_frame s _⟩⟩
  · rw [setPc_pc, if_pos hz]
  · rw [setPc_pc, if_neg (Bool.eq_false_iff.1 hz)]

/-! ## HALT and NOP (O15, O16) -/

/-- Setting the halted indicator leaves every other part of the state (R122). -/
theorem setHalted_frame (s : State) :
    KeepsRegs s s.setHalted ∧ s.setHalted.flags = s.flags ∧ s.setHalted.pc = s.pc ∧ s.setHalted.ir = s.ir ∧
      KeepsMemory s s.setHalted :=
  ⟨setHalted_reg s, setHalted_flags s, setHalted_pc s, setHalted_ir s, fun _ => rfl⟩

/-- A running machine executes its next instruction in the fetched state (R81). -/
theorem stepWith_of_nextInstr {m : OpMap} {s : State} {i : Instr} (hh : s.halted = false) (hi : nextInstr m s = i) :
    stepWith m s = exec i s.fetch :=
  hi ▸ stepWith_running m hh

/-- Settles O15: the halted indicator is set in the fetched state, where `pc` is past the HALT already, and a step of a
halted machine is the identity (R83). -/
theorem haltSetsHalted : Obligations.HaltSetsHalted := by
  refine ⟨selectedBy_instrOf fun _ => rfl, fun s => ⟨_, exec_halt s, setHalted_halted s, setHalted_frame s⟩,
    fun m s hh hi => ?_⟩
  have hstep : stepWith m s = .next s.fetch.setHalted := (stepWith_of_nextInstr hh hi).trans (exec_halt s.fetch)
  obtain ⟨hregs, hflags, hpc, hir, hmem⟩ := setHalted_frame s.fetch
  have hhalted : s.fetch.setHalted.halted = true := setHalted_halted s.fetch
  exact ⟨_, hstep, hhalted, hpc, hir, hregs, hflags, hmem, by rw [State.running, hhalted, Bool.not_true],
    stepWith_halted m hhalted⟩

/-- Settles O16: NOP answers the state it takes, so its step answers the fetched state. -/
theorem nopChangesNothing : Obligations.NopChangesNothing :=
  ⟨selectedBy_instrOf fun _ => rfl,
    fun s => ⟨s, exec_nop s, fun _ => rfl, rfl, rfl, rfl, rfl, fun _ => rfl⟩,
    fun _ s hh hi => (stepWith_of_nextInstr hh hi).trans (exec_nop s.fetch)⟩

end Sys2Proof.Machine

/-! SUPPORT. What the host can observe (spec R158, R23): the snapshot and the status together are the processor state,
and reading every cell determines a memory in canonical form. -/

namespace Sys2Proof.Machine

theorem snapshot_eq_iff (s t : State) :
    s.snapshot = t.snapshot ↔ s.pc = t.pc ∧ s.x = t.x ∧ s.flags = t.flags ∧ s.ir = t.ir :=
  Iff.of_eq (Snapshot.mk.injEq ..)

theorem running_eq_iff (s t : State) : s.running = t.running ↔ s.halted = t.halted :=
  Bool.not_inj_iff

/-- The snapshot and the status show the whole processor state and nothing of the memory. -/
theorem agreeProcessor_iff_snapshot_running (s t : State) :
    s.agreeProcessor t ↔ s.snapshot = t.snapshot ∧ s.running = t.running := by
  rw [snapshot_eq_iff, running_eq_iff]
  constructor
  · rintro ⟨hx, hpc, hflags, hhalted, hir⟩
    exact ⟨⟨hpc, hx, hflags, hir⟩, hhalted⟩
  · rintro ⟨⟨hpc, hx, hflags, hir⟩, hhalted⟩
    exact ⟨hx, hpc, hflags, hhalted, hir⟩

/-- A bus write by the host is a load of one word. -/
theorem hostWrite_agreeProcessor (s : State) (a v : Word) : (s.hostWrite a v).agreeProcessor s :=
  hostLoad_agreeProcessor s a [v]

/-- Settles O51: states with equal snapshot and status differ in their memory alone, and canonical memories that read
alike are equal (O41). -/
theorem hostObservesTheWholeState : Obligations.HostObservesTheWholeState := by
  refine ⟨fun s t hs ht hsnapshot hrunning hread => ?_, fun s a v =>
    (agreeProcessor_iff_snapshot_running _ _).1 (hostWrite_agreeProcessor s a v)⟩
  have hproc : s.agreeProcessor t := (agreeProcessor_iff_snapshot_running s t).2 ⟨hsnapshot, hrunning⟩
  obtain ⟨mem, rfl⟩ := hproc.exists_setMem
  obtain rfl : s.mem = mem := canonicalMemoriesThatReadAlikeAreEqual s.mem mem hs ht hread
  rfl

end Sys2Proof.Machine
